-- ==== Sys2Proof/Word.lean ====
section
/-! DEFINITION. The CORE's two value widths (spec/00_scope.md R9): u8 and u16. -/

namespace Sys2Proof

/-- R9: an unsigned 8-bit value. -/
abbrev Byte := BitVec 8

/-- R6, R9: an unsigned 16-bit value (XLEN = 16), the width of a register, an address, an immediate and an ALU result. -/
abbrev Word := BitVec 16

end Sys2Proof
end

