-- ==== Sys2Proof/Syntax.lean ====
section
/-! DEFINITION. The instructions of the CORE as syntax: one constructor of `Instr` per row of spec/opcode_table.json, and
the operand forms their encodings admit (spec/30_encoding.md sections 1 to 3). Every field of an encoding is kept, the
redundant ones too (the d bit, the s bit, the displacement size), so that an instruction determines its bytes. -/

namespace Sys2Proof

/-- R71: the width bit w. `byte` is w = 0, `word` is w = 1. -/
inductive Width where
  | byte
  | word
  deriving DecidableEq, Repr

/-- R71, R82: the direction bit d. `toRm` is d = 0 (the rm operand is the destination), `toReg` is d = 1. -/
inductive Dir where
  | toRm
  | toReg
  deriving DecidableEq, Repr

/-- R20: the eight word registers, in the order of their index 0 to 7. -/
inductive Reg where
  | ax | cx | dx | bx | sp | bp | si | di
  deriving DecidableEq, Repr

/-- R22: the access mode of a register operand. -/
inductive Slice where
  | lo
  | hi
  | word
  deriving DecidableEq, Repr

/-- R22: a register operand is a pair (index, slice). -/
structure RegOp where
  index : Reg
  slice : Slice
  deriving DecidableEq, Repr

/-- R79: the eight effective-address base expressions, in rm order. -/
inductive Base where
  | bxSi | bxDi | bpSi | bpDi | si | di | bp | bx
  deriving DecidableEq, Repr

/-- R78: the ways an encoding writes a memory operand. -/
inductive MemForm where
  /-- mod = 00 and rm = 110, R80. -/
  | direct (addr : Word)
  /-- mod = 00 and rm other than 110. -/
  | plain (b : Base)
  /-- mod = 01, an 8-bit displacement. -/
  | disp8 (b : Base) (d : Byte)
  /-- mod = 10, a 16-bit displacement. -/
  | disp16 (b : Base) (d : Word)
  deriving DecidableEq, Repr

/-- R78: the rm operand, a register when mod = 11 and a memory operand otherwise. -/
inductive RmOperand where
  | reg (r : RegOp)
  | mem (m : MemForm)
  deriving DecidableEq, Repr

/-- R93: the operations the arithmetic code selects. -/
inductive ArithOp where
  | add
  | sub
  | cmp
  deriving DecidableEq, Repr

/-- R95, R96: the sixteen conditional jumps in cc order, then the four loop forms in kk order. -/
inductive BranchOp where
  | jo | jno | jb | jnb | je | jne | jbe | ja | js | jns | jp | jnp | jl | jnl | jle | jg
  | loopnz | loopz | loop | jcxz
  deriving DecidableEq, Repr

/-- One constructor per row of spec/opcode_table.json. An immediate is the u16 the decoder resolves it to (R89).
In the 80 to 83 forms `s` is the sign-extend bit. In the branch forms `disp8` is the displacement byte (R86). -/
inductive Instr where
  | movRmReg (d : Dir) (w : Width) (reg : RegOp) (rm : RmOperand)
  | movImmRm (w : Width) (rm : RmOperand) (imm : Word)
  | movImmReg (w : Width) (reg : RegOp) (imm : Word)
  | addRmReg (d : Dir) (w : Width) (reg : RegOp) (rm : RmOperand)
  | addImmRm (s : Bool) (w : Width) (rm : RmOperand) (imm : Word)
  | addImmAcc (w : Width) (imm : Word)
  | subRmReg (d : Dir) (w : Width) (reg : RegOp) (rm : RmOperand)
  | subImmRm (s : Bool) (w : Width) (rm : RmOperand) (imm : Word)
  | subImmAcc (w : Width) (imm : Word)
  | cmpRmReg (d : Dir) (w : Width) (reg : RegOp) (rm : RmOperand)
  | cmpImmRm (s : Bool) (w : Width) (rm : RmOperand) (imm : Word)
  | cmpImmAcc (w : Width) (imm : Word)
  | jo (disp8 : Byte)
  | jno (disp8 : Byte)
  | jb (disp8 : Byte)
  | jnb (disp8 : Byte)
  | je (disp8 : Byte)
  | jne (disp8 : Byte)
  | jbe (disp8 : Byte)
  | ja (disp8 : Byte)
  | js (disp8 : Byte)
  | jns (disp8 : Byte)
  | jp (disp8 : Byte)
  | jnp (disp8 : Byte)
  | jl (disp8 : Byte)
  | jnl (disp8 : Byte)
  | jle (disp8 : Byte)
  | jg (disp8 : Byte)
  | loopnz (disp8 : Byte)
  | loopz (disp8 : Byte)
  | loop (disp8 : Byte)
  | jcxz (disp8 : Byte)
  deriving DecidableEq, Repr

/-! ### What the decoder reports of an instruction (R102) -/

/-- R102: the base of a decoded memory operand, one of the eight expressions or DIRECT. -/
inductive BaseExpr where
  | regs (b : Base)
  | direct
  deriving DecidableEq, Repr

/-- R81, R102: a memory operand, carried unresolved as (base expression, displacement). -/
structure MemOperand where
  base : BaseExpr
  disp : Word
  deriving DecidableEq, Repr

/-- R105: a destination. No instruction has an immediate destination, so the type has none. -/
inductive Place where
  | reg (r : RegOp)
  | mem (m : MemOperand)
  deriving DecidableEq, Repr

/-- R102: an operand, tagged as a register, a memory operand or an immediate. -/
inductive Operand where
  | reg (r : RegOp)
  | mem (m : MemOperand)
  | imm (v : Word)
  deriving DecidableEq, Repr

/-- R70: the six formats. -/
inductive Format where
  | rm | immRm | immReg | acc | jcc | loop
  deriving DecidableEq, Repr

/-- R102: the operation of a decoded instruction. -/
inductive Op where
  | mov
  | arith (a : ArithOp)
  | branch (b : BranchOp)
  deriving DecidableEq, Repr

/-- R102: the decoded instruction as the spec's table of fields lists it. -/
structure Decoded where
  op     : Op
  format : Format
  width  : Option Width
  dst    : Option Place
  src    : Option Operand
  disp8  : Option Byte
  len    : Nat
  next   : Nat
  deriving DecidableEq, Repr

/-- R92: the classes of the classification table. -/
inductive OpClass where
  | movRm | movImmRm | movImmReg | arithRm | arithImmRm | arithAcc | jcc | loop
  deriving DecidableEq, Repr

/-- R103: the two faults a decode can end in. -/
inductive DecodeFault where
  /-- R98: the opcode byte, or byte 2's `reg` field, selects nothing. -/
  | unsupportedOpcode
  /-- R101: a byte the instruction needs lies at or past the end of the stream. -/
  | truncatedStream
  deriving DecidableEq, Repr

end Sys2Proof
end

