-- ==== Sys2Proof/WellFormed.lean ====
section
/-! DEFINITION. Which terms of `Instr` an encoding exists for. Every check is a Bool, and Tests/Slice0.lean shows a term
that each of them refuses. -/

namespace Sys2Proof

/-- R21: only AX, CX, DX and BX have byte halves. -/
def Reg.hasHalves : Reg → Bool
  | .ax | .cx | .dx | .bx => true
  | .sp | .bp | .si | .di => false

/-- R22: the width a register operand belongs to. -/
def Slice.width : Slice → Width
  | .lo | .hi => .byte
  | .word => .word

/-- R21, R22: a register operand of width `w` exists. -/
def RegOp.wf (w : Width) (r : RegOp) : Bool :=
  r.slice.width == w && (r.slice == .word || r.index.hasHalves)

/-- R78, R79: BP alone has no encoding with mod = 00 (those bits mean a direct address). -/
def MemForm.wf : MemForm → Bool
  | .plain .bp => false
  | _ => true

/-- R78: the rm operand fits the width bit. -/
def RmOperand.wf (w : Width) : RmOperand → Bool
  | .reg r => r.wf w
  | .mem m => m.wf

/-- R87, R88: the u16 values the data bytes of an immediate form can give.
A byte immediate is zero-extended. A sign-extended one repeats bit 7. -/
def immFits (s : Bool) (w : Width) (v : Word) : Bool :=
  match w, s with
  | .byte, _ => v == (v.setWidth 8).setWidth 16
  | .word, true => v == (v.setWidth 8).signExtend 16
  | .word, false => true

/-- An encoding exists for the instruction (30_encoding.md R71 to R77, R87, R88, R105). -/
def Instr.wf : Instr → Bool
  | .movRmReg _ w reg rm | .addRmReg _ w reg rm | .subRmReg _ w reg rm | .cmpRmReg _ w reg rm =>
    reg.wf w && rm.wf w
  | .movImmRm w rm imm => rm.wf w && immFits false w imm
  | .movImmReg w reg imm => reg.wf w && immFits false w imm
  | .addImmRm s w rm imm | .subImmRm s w rm imm | .cmpImmRm s w rm imm => rm.wf w && immFits s w imm
  | .addImmAcc w imm | .subImmAcc w imm | .cmpImmAcc w imm => immFits false w imm
  | .jo _ | .jno _ | .jb _ | .jnb _ | .je _ | .jne _ | .jbe _ | .ja _ | .js _ | .jns _ | .jp _ | .jnp _
  | .jl _ | .jnl _ | .jle _ | .jg _ | .loopnz _ | .loopz _ | .loop _ | .jcxz _ => true

end Sys2Proof
end

