-- ==== Sys2Proof/Decode.lean ====
section
/-! DEFINITION. The decoder sub-block (spec/30_encoding.md): bytes to an instruction or a named fault, total on any byte
list; after it the encoder, written from the same encoding diagrams; then what R100 and R102 say of a decoded
instruction; then the opcode table's own numbering of an instruction's bits. -/

namespace Sys2Proof

/-! ### Bytes and words (R9, R90) -/

/-- R9: `zext_16`. -/
def zext16 (b : Byte) : Word := b.setWidth 16

/-- R9: `sext_16`. -/
def sext16 (b : Byte) : Word := b.signExtend 16

/-- R9: `hi ++ lo`. -/
def joinBytes (hi lo : Byte) : Word := hi ++ lo

/-- Bits 7:0 of a word (byte lane 0, R12). -/
def lowByte (v : Word) : Byte := v.extractLsb' 0 8

/-- Bits 15:8 of a word (byte lane 1, R12). -/
def highByte (v : Word) : Byte := v.extractLsb' 8 8

/-- R8: `v[i]`, bit i of a byte. -/
def bitAt (b : Byte) (i : Nat) : Bool := b.getLsbD i

/-! ### Reading the stream (R101, R104) -/

/-- R104 `Next8`: the next byte, or `TruncatedStream`. -/
def next8 : List Byte → Except DecodeFault (Byte × List Byte)
  | [] => .error .truncatedStream
  | b :: bs => .ok (b, bs)

/-- R104 `Next16`, R90: low byte first. -/
def next16 (bs : List Byte) : Except DecodeFault (Word × List Byte) := do
  let (lo, bs) ← next8 bs
  let (hi, bs) ← next8 bs
  return (joinBytes hi lo, bs)

/-! ### Fields of the opcode byte and the ModRegRm byte -/

/-- R71: the width bit. -/
def Width.ofBit : Bool → Width
  | false => .byte
  | true => .word

/-- R71, R82: the direction bit. -/
def Dir.ofBit : Bool → Dir
  | false => .toRm
  | true => .toReg

/-- R20: the register of an index. -/
def Reg.ofIndex : BitVec 3 → Reg
  | 0b000#3 => .ax
  | 0b001#3 => .cx
  | 0b010#3 => .dx
  | 0b011#3 => .bx
  | 0b100#3 => .sp
  | 0b101#3 => .bp
  | 0b110#3 => .si
  | 0b111#3 => .di

/-- R22 `RegOp(r, w)`: the register operand of a 3-bit register number. -/
def RegOp.ofField (r : BitVec 3) : Width → RegOp
  | .word => ⟨Reg.ofIndex r, .word⟩
  | .byte => if r.getLsbD 2 then ⟨Reg.ofIndex (r - 4#3), .hi⟩ else ⟨Reg.ofIndex r, .lo⟩

/-- R79: the base expression of an rm field. -/
def Base.ofField : BitVec 3 → Base
  | 0b000#3 => .bxSi
  | 0b001#3 => .bxDi
  | 0b010#3 => .bpSi
  | 0b011#3 => .bpDi
  | 0b100#3 => .si
  | 0b101#3 => .di
  | 0b110#3 => .bp
  | 0b111#3 => .bx

/-- R93: the operation of a 3-bit arithmetic code; the other five codes select none. -/
def ArithOp.ofCode : BitVec 3 → Option ArithOp
  | 0b000#3 => some .add
  | 0b101#3 => some .sub
  | 0b111#3 => some .cmp
  | _ => none

/-- R95: the conditional jumps in the order of their condition number cc, 0000 to 1111. -/
def jccTable : List BranchOp :=
  [.jo, .jno, .jb, .jnb, .je, .jne, .jbe, .ja, .js, .jns, .jp, .jnp, .jl, .jnl, .jle, .jg]

/-- R95: the conditional jump of a condition number. -/
def BranchOp.ofCc (cc : BitVec 4) : BranchOp := jccTable[cc.toNat]'cc.isLt

/-- R96: the loop form of a loop kind. -/
def BranchOp.ofKk : BitVec 2 → BranchOp
  | 0b00#2 => .loopnz
  | 0b01#2 => .loopz
  | 0b10#2 => .loop
  | 0b11#2 => .jcxz

/-- R72: the ModRegRm byte's `mod` field, bits 7:6. -/
def modField (b1 : Byte) : BitVec 2 := b1.extractLsb' 6 2

/-- R72: the `reg` field, bits 5:3. -/
def regField (b1 : Byte) : BitVec 3 := b1.extractLsb' 3 3

/-- R72: the `rm` field, bits 2:0. -/
def rmField (b1 : Byte) : BitVec 3 := b1.extractLsb' 0 3

/-- R75, R76: the arithmetic code in the opcode byte, bits 5:3. -/
def opcodeArithCode (b0 : Byte) : BitVec 3 := b0.extractLsb' 3 3

/-! ### Classification (R91, R92) -/

/-- R92: one row of the classification table. `arithCode` is the extra condition "b0[5:3] in {000, 101, 111}". -/
structure OpRow where
  mask      : Byte
  pattern   : Byte
  arithCode : Bool
  cls       : OpClass
  deriving DecidableEq, Repr

/-- R92: the classification table, in its order. -/
def opTable : List OpRow :=
  [ ⟨0xFC#8, 0x88#8, false, .movRm⟩,
    ⟨0xFE#8, 0xC6#8, false, .movImmRm⟩,
    ⟨0xF0#8, 0xB0#8, false, .movImmReg⟩,
    ⟨0xC4#8, 0x00#8, true, .arithRm⟩,
    ⟨0xFC#8, 0x80#8, false, .arithImmRm⟩,
    ⟨0xC6#8, 0x04#8, true, .arithAcc⟩,
    ⟨0xF0#8, 0x70#8, false, .jcc⟩,
    ⟨0xFC#8, 0xE0#8, false, .loop⟩ ]

/-- R91: a row selects a byte. -/
def OpRow.selects (r : OpRow) (b0 : Byte) : Bool :=
  b0 &&& r.mask == r.pattern && (!r.arithCode || (ArithOp.ofCode (opcodeArithCode b0)).isSome)

/-- R91, R92 `Classify`: the first row that selects the byte; `none` is the spec's NONE. -/
def classify (b0 : Byte) : Option OpClass :=
  (opTable.find? fun r => r.selects b0).map OpRow.cls

/-! ### Operand forms (R78 to R81, R87, R88) -/

/-- R78, R104 `RmOperand`: the rm operand, reading its displacement bytes. -/
def decodeRmOperand (mode : BitVec 2) (rm : BitVec 3) (w : Width) (bs : List Byte) :
    Except DecodeFault (RmOperand × List Byte) :=
  match mode with
  | 0b11#2 => .ok (.reg (RegOp.ofField rm w), bs)
  | 0b00#2 =>
    if rm = 0b110#3 then do
      let (addr, bs) ← next16 bs
      return (.mem (.direct addr), bs)
    else .ok (.mem (.plain (Base.ofField rm)), bs)
  | 0b01#2 => do
    let (d, bs) ← next8 bs
    return (.mem (.disp8 (Base.ofField rm) d), bs)
  | 0b10#2 => do
    let (d, bs) ← next16 bs
    return (.mem (.disp16 (Base.ofField rm) d), bs)

/-- R87, R88, R104: the immediate of a form with sign-extend bit `s` and width `w`. The forms that have no s bit
decode with `s = false` (R83). -/
def decodeImm (s : Bool) (w : Width) (bs : List Byte) : Except DecodeFault (Word × List Byte) :=
  match s, w with
  | false, .word => next16 bs
  | true, .word => do
    let (d, bs) ← next8 bs
    return (sext16 d, bs)
  | _, .byte => do
    let (d, bs) ← next8 bs
    return (zext16 d, bs)

/-! ### Building the constructors -/

/-- R92 row 4: the register/memory form of an arithmetic operation. -/
def ArithOp.rmInstr : ArithOp → Dir → Width → RegOp → RmOperand → Instr
  | .add => .addRmReg
  | .sub => .subRmReg
  | .cmp => .cmpRmReg

/-- R92 row 5: the immediate to register/memory form. -/
def ArithOp.immRmInstr : ArithOp → Bool → Width → RmOperand → Word → Instr
  | .add => .addImmRm
  | .sub => .subImmRm
  | .cmp => .cmpImmRm

/-- R92 row 6: the immediate to accumulator form. -/
def ArithOp.accInstr : ArithOp → Width → Word → Instr
  | .add => .addImmAcc
  | .sub => .subImmAcc
  | .cmp => .cmpImmAcc

/-- R92 rows 7 and 8: the branch forms. -/
def BranchOp.instr : BranchOp → Byte → Instr
  | .jo => .jo
  | .jno => .jno
  | .jb => .jb
  | .jnb => .jnb
  | .je => .je
  | .jne => .jne
  | .jbe => .jbe
  | .ja => .ja
  | .js => .js
  | .jns => .jns
  | .jp => .jp
  | .jnp => .jnp
  | .jl => .jl
  | .jnl => .jnl
  | .jle => .jle
  | .jg => .jg
  | .loopnz => .loopnz
  | .loopz => .loopz
  | .loop => .loop
  | .jcxz => .jcxz

/-! ### The decoder (R104) -/

/-- R104, case RM. -/
def decodeRm (mk : Dir → Width → RegOp → RmOperand → Instr) (b0 : Byte) (bs : List Byte) :
    Except DecodeFault (Instr × List Byte) := do
  let d := Dir.ofBit (bitAt b0 1)
  let w := Width.ofBit (bitAt b0 0)
  let (b1, bs) ← next8 bs
  let (rm, bs) ← decodeRmOperand (modField b1) (rmField b1) w bs
  return (mk d w (RegOp.ofField (regField b1) w) rm, bs)

/-- R104, cases IMM_RM, after the ModRegRm byte `b1` has been read and its `reg` field accepted. -/
def decodeImmRm (mk : RmOperand → Word → Instr) (s : Bool) (w : Width) (b1 : Byte) (bs : List Byte) :
    Except DecodeFault (Instr × List Byte) := do
  let (rm, bs) ← decodeRmOperand (modField b1) (rmField b1) w bs
  let (v, bs) ← decodeImm s w bs
  return (mk rm v, bs)

/-- R104, after `Classify`: the rest of an instruction whose opcode byte is `b0`.
The `reg` checks of R93 and R94 come right after the ModRegRm byte is read (R101). -/
def decodeClass (c : OpClass) (b0 : Byte) (bs : List Byte) : Except DecodeFault (Instr × List Byte) :=
  let w := Width.ofBit (bitAt b0 0)
  match c with
  | .movRm => decodeRm .movRmReg b0 bs
  | .movImmRm => do
    let (b1, bs) ← next8 bs
    if regField b1 = 0b000#3 then decodeImmRm (.movImmRm w) false w b1 bs
    else .error .unsupportedOpcode
  | .movImmReg => do
    let w := Width.ofBit (bitAt b0 3)
    let (v, bs) ← decodeImm false w bs
    return (.movImmReg w (RegOp.ofField (b0.extractLsb' 0 3) w) v, bs)
  | .arithRm =>
    match ArithOp.ofCode (opcodeArithCode b0) with
    | some op => decodeRm op.rmInstr b0 bs
    | none => .error .unsupportedOpcode
  | .arithImmRm => do
    let s := bitAt b0 1
    let (b1, bs) ← next8 bs
    match ArithOp.ofCode (regField b1) with
    | some op => decodeImmRm (op.immRmInstr s w) s w b1 bs
    | none => .error .unsupportedOpcode
  | .arithAcc =>
    match ArithOp.ofCode (opcodeArithCode b0) with
    | some op => do
      let (v, bs) ← decodeImm false w bs
      return (op.accInstr w v, bs)
    | none => .error .unsupportedOpcode
  | .jcc => do
    let (d, bs) ← next8 bs
    return ((BranchOp.ofCc (b0.extractLsb' 0 4)).instr d, bs)
  | .loop => do
    let (d, bs) ← next8 bs
    return ((BranchOp.ofKk (b0.extractLsb' 0 2)).instr d, bs)

/-- R104 `Decode`: the instruction at the head of the bytes, and the bytes after it. -/
def decode (bs : List Byte) : Except DecodeFault (Instr × List Byte) := do
  let (b0, bs) ← next8 bs
  match classify b0 with
  | some c => decodeClass c b0 bs
  | none => .error .unsupportedOpcode

/-! ### The encoder -/

/-- R71: the width bit of a width. -/
def Width.bit : Width → BitVec 1
  | .byte => 0b0#1
  | .word => 0b1#1

/-- R71: the direction bit of a direction. -/
def Dir.bit : Dir → BitVec 1
  | .toRm => 0b0#1
  | .toReg => 0b1#1

/-- R20: the index of a register. -/
def Reg.index : Reg → BitVec 3
  | .ax => 0b000#3
  | .cx => 0b001#3
  | .dx => 0b010#3
  | .bx => 0b011#3
  | .sp => 0b100#3
  | .bp => 0b101#3
  | .si => 0b110#3
  | .di => 0b111#3

/-- R22: the register number of a register operand (AL to BL are 0 to 3, AH to BH are 4 to 7). -/
def RegOp.field (r : RegOp) : BitVec 3 :=
  match r.slice with
  | .word | .lo => r.index.index
  | .hi => r.index.index + 4#3

/-- R22: the number `w*8 + r` of a register-operand slot, the spec's own name for it (decision D21). -/
def RegOp.slot (r : RegOp) : Nat := r.slice.width.bit.toNat * 8 + r.field.toNat

/-- R79: the rm field of a base expression. -/
def Base.field : Base → BitVec 3
  | .bxSi => 0b000#3
  | .bxDi => 0b001#3
  | .bpSi => 0b010#3
  | .bpDi => 0b011#3
  | .si => 0b100#3
  | .di => 0b101#3
  | .bp => 0b110#3
  | .bx => 0b111#3

/-- R93: the code of an arithmetic operation. -/
def ArithOp.code : ArithOp → BitVec 3
  | .add => 0b000#3
  | .sub => 0b101#3
  | .cmp => 0b111#3

/-- R77, R95, R96: the opcode byte of a branch. -/
def BranchOp.opcode : BranchOp → Byte
  | .jo => 0b0111#4 ++ 0b0000#4
  | .jno => 0b0111#4 ++ 0b0001#4
  | .jb => 0b0111#4 ++ 0b0010#4
  | .jnb => 0b0111#4 ++ 0b0011#4
  | .je => 0b0111#4 ++ 0b0100#4
  | .jne => 0b0111#4 ++ 0b0101#4
  | .jbe => 0b0111#4 ++ 0b0110#4
  | .ja => 0b0111#4 ++ 0b0111#4
  | .js => 0b0111#4 ++ 0b1000#4
  | .jns => 0b0111#4 ++ 0b1001#4
  | .jp => 0b0111#4 ++ 0b1010#4
  | .jnp => 0b0111#4 ++ 0b1011#4
  | .jl => 0b0111#4 ++ 0b1100#4
  | .jnl => 0b0111#4 ++ 0b1101#4
  | .jle => 0b0111#4 ++ 0b1110#4
  | .jg => 0b0111#4 ++ 0b1111#4
  | .loopnz => 0b111000#6 ++ 0b00#2
  | .loopz => 0b111000#6 ++ 0b01#2
  | .loop => 0b111000#6 ++ 0b10#2
  | .jcxz => 0b111000#6 ++ 0b11#2

/-- R90: a two-byte field in the stream, low byte first. -/
def wordBytes (v : Word) : List Byte := [lowByte v, highByte v]

/-- R78: the mod field of a memory form. -/
def MemForm.modBits : MemForm → BitVec 2
  | .direct _ | .plain _ => 0b00#2
  | .disp8 _ _ => 0b01#2
  | .disp16 _ _ => 0b10#2

/-- R78: the rm field of a memory form. -/
def MemForm.rmBits : MemForm → BitVec 3
  | .direct _ => 0b110#3
  | .plain b | .disp8 b _ | .disp16 b _ => b.field

/-- R78, R80: the displacement or address bytes of a memory form. -/
def MemForm.dispBytes : MemForm → List Byte
  | .direct addr => wordBytes addr
  | .plain _ => []
  | .disp8 _ d => [d]
  | .disp16 _ d => wordBytes d

/-- R72: the ModRegRm byte of its three fields. -/
def modRegRm (mode : BitVec 2) (reg rm : BitVec 3) : Byte := mode ++ reg ++ rm

/-- R78: the mod field of an rm operand. -/
def RmOperand.modBits : RmOperand → BitVec 2
  | .reg _ => 0b11#2
  | .mem m => m.modBits

/-- R78: the rm field of an rm operand. -/
def RmOperand.rmBits : RmOperand → BitVec 3
  | .reg r => r.field
  | .mem m => m.rmBits

/-- R78: the displacement bytes of an rm operand. -/
def RmOperand.dispBytes : RmOperand → List Byte
  | .reg _ => []
  | .mem m => m.dispBytes

/-- R72, R78: the ModRegRm byte and the displacement bytes. -/
def encodeModRegRm (reg : BitVec 3) (rm : RmOperand) : List Byte := modRegRm rm.modBits reg rm.rmBits :: rm.dispBytes

/-- R87, R88: the data bytes of an immediate. -/
def immBytes (s : Bool) (w : Width) (v : Word) : List Byte :=
  match s, w with
  | false, .word => wordBytes v
  | true, .word | _, .byte => [lowByte v]

/-- R76: the opcode byte of the register/memory move, `100010 d w`. -/
def movRmOpcode (d : Dir) (w : Width) : Byte := 0b100010#6 ++ d.bit ++ w.bit

/-- R73: the opcode byte of the immediate to register/memory move, `1100011w`. -/
def movImmRmOpcode (w : Width) : Byte := 0b1100011#7 ++ w.bit

/-- R74: the opcode byte of the immediate to register move, `1011 w rrr`. -/
def movImmRegOpcode (w : Width) (r : BitVec 3) : Byte := 0b1011#4 ++ w.bit ++ r

/-- R76: the opcode byte of the register/memory arithmetic form, `00 ooo 0 d w`. -/
def arithRmOpcode (op : ArithOp) (d : Dir) (w : Width) : Byte := 0b00#2 ++ op.code ++ 0b0#1 ++ d.bit ++ w.bit

/-- R75: the opcode byte of the accumulator form, `00 ooo 10 w`. -/
def accOpcode (op : ArithOp) (w : Width) : Byte := 0b00#2 ++ op.code ++ 0b10#2 ++ w.bit

/-- R73: the opcode byte of the immediate arithmetic form, `100000sw`. -/
def arithImmOpcode (s : Bool) (w : Width) : Byte := 0b100000#6 ++ BitVec.ofBool s ++ w.bit

/-- R70 to R77, R87, R88, R95, R96: the bytes of an instruction. -/
def encode : Instr → List Byte
  | .movRmReg d w reg rm => movRmOpcode d w :: encodeModRegRm reg.field rm
  | .movImmRm w rm imm => movImmRmOpcode w :: (encodeModRegRm 0b000#3 rm ++ immBytes false w imm)
  | .movImmReg w reg imm => movImmRegOpcode w reg.field :: immBytes false w imm
  | .addRmReg d w reg rm => arithRmOpcode .add d w :: encodeModRegRm reg.field rm
  | .addImmRm s w rm imm => arithImmOpcode s w :: (encodeModRegRm ArithOp.add.code rm ++ immBytes s w imm)
  | .addImmAcc w imm => accOpcode .add w :: immBytes false w imm
  | .subRmReg d w reg rm => arithRmOpcode .sub d w :: encodeModRegRm reg.field rm
  | .subImmRm s w rm imm => arithImmOpcode s w :: (encodeModRegRm ArithOp.sub.code rm ++ immBytes s w imm)
  | .subImmAcc w imm => accOpcode .sub w :: immBytes false w imm
  | .cmpRmReg d w reg rm => arithRmOpcode .cmp d w :: encodeModRegRm reg.field rm
  | .cmpImmRm s w rm imm => arithImmOpcode s w :: (encodeModRegRm ArithOp.cmp.code rm ++ immBytes s w imm)
  | .cmpImmAcc w imm => accOpcode .cmp w :: immBytes false w imm
  | .jo d => [BranchOp.jo.opcode, d]
  | .jno d => [BranchOp.jno.opcode, d]
  | .jb d => [BranchOp.jb.opcode, d]
  | .jnb d => [BranchOp.jnb.opcode, d]
  | .je d => [BranchOp.je.opcode, d]
  | .jne d => [BranchOp.jne.opcode, d]
  | .jbe d => [BranchOp.jbe.opcode, d]
  | .ja d => [BranchOp.ja.opcode, d]
  | .js d => [BranchOp.js.opcode, d]
  | .jns d => [BranchOp.jns.opcode, d]
  | .jp d => [BranchOp.jp.opcode, d]
  | .jnp d => [BranchOp.jnp.opcode, d]
  | .jl d => [BranchOp.jl.opcode, d]
  | .jnl d => [BranchOp.jnl.opcode, d]
  | .jle d => [BranchOp.jle.opcode, d]
  | .jg d => [BranchOp.jg.opcode, d]
  | .loopnz d => [BranchOp.loopnz.opcode, d]
  | .loopz d => [BranchOp.loopz.opcode, d]
  | .loop d => [BranchOp.loop.opcode, d]
  | .jcxz d => [BranchOp.jcxz.opcode, d]

/-! ### Length (R100) -/

/-- R100 `DispLen`. -/
def RmOperand.dispLen : RmOperand → Nat
  | .reg _ => 0
  | .mem (.plain _) => 0
  | .mem (.disp8 _ _) => 1
  | .mem (.direct _) | .mem (.disp16 _ _) => 2

/-- R100: the data bytes I of an immediate form. -/
def immLen (s : Bool) : Width → Nat
  | .byte => 1
  | .word => if s then 1 else 2

/-- R100: `len = 1 + M + D + I`. -/
def Instr.len : Instr → Nat
  | .movRmReg _ _ _ rm | .addRmReg _ _ _ rm | .subRmReg _ _ _ rm | .cmpRmReg _ _ _ rm => 1 + 1 + rm.dispLen
  | .movImmRm w rm _ => 1 + 1 + rm.dispLen + immLen false w
  | .addImmRm s w rm _ | .subImmRm s w rm _ | .cmpImmRm s w rm _ => 1 + 1 + rm.dispLen + immLen s w
  | .movImmReg w _ _ | .addImmAcc w _ | .subImmAcc w _ | .cmpImmAcc w _ => 1 + immLen false w
  | .jo _ | .jno _ | .jb _ | .jnb _ | .je _ | .jne _ | .jbe _ | .ja _ | .js _ | .jns _ | .jp _ | .jnp _
  | .jl _ | .jnl _ | .jle _ | .jg _ | .loopnz _ | .loopz _ | .loop _ | .jcxz _ => 1 + 1

/-- R100 `DispLen(mod, rm)`. -/
def dispLenOf (mode : BitVec 2) (rm : BitVec 3) : Nat :=
  match mode with
  | 0b00#2 => if rm = 0b110#3 then 2 else 0
  | 0b01#2 => 1
  | 0b10#2 => 2
  | 0b11#2 => 0

/-- R100: the length of an instruction of class `c` as its first two bytes tell it, `1 + M + D + I`. `b1` counts only in
the classes that have a ModRegRm byte. -/
def lenOfBytes (c : OpClass) (b0 b1 : Byte) : Nat :=
  let w := Width.ofBit (bitAt b0 0)
  match c with
  | .movRm | .arithRm => 1 + 1 + dispLenOf (modField b1) (rmField b1)
  | .movImmRm => 1 + 1 + dispLenOf (modField b1) (rmField b1) + immLen false w
  | .arithImmRm => 1 + 1 + dispLenOf (modField b1) (rmField b1) + immLen (bitAt b0 1) w
  | .movImmReg => 1 + immLen false (Width.ofBit (bitAt b0 3))
  | .arithAcc => 1 + immLen false w
  | .jcc | .loop => 1 + 1

/-! ### The decoded instruction's fields (R82 to R86, R102) -/

/-- R80, R81: the memory operand of a form, its displacement assembled. -/
def MemForm.operand : MemForm → MemOperand
  | .direct addr => ⟨.direct, addr⟩
  | .plain b => ⟨.regs b, 0#16⟩
  | .disp8 b d => ⟨.regs b, sext16 d⟩
  | .disp16 b d => ⟨.regs b, d⟩

/-- R78: the rm operand as a destination. -/
def RmOperand.place : RmOperand → Place
  | .reg r => .reg r
  | .mem m => .mem m.operand

/-- A destination read as an operand (R189 reads its destination). -/
def Place.operand : Place → Operand
  | .reg r => .reg r
  | .mem m => .mem m

/-- R82: the destination of format RM. -/
def rmDst (d : Dir) (reg : RegOp) (rm : RmOperand) : Place :=
  match d with
  | .toReg => .reg reg
  | .toRm => rm.place

/-- R82: the source of format RM. -/
def rmSrc (d : Dir) (reg : RegOp) (rm : RmOperand) : Operand :=
  match d with
  | .toReg => rm.place.operand
  | .toRm => .reg reg

/-- R84: the accumulator, AL or AX. -/
def accReg (w : Width) : RegOp := RegOp.ofField 0b000#3 w

/-- R92, R93, R95, R96: the operation. -/
def Instr.op : Instr → Op
  | .movRmReg .. | .movImmRm .. | .movImmReg .. => .mov
  | .addRmReg .. | .addImmRm .. | .addImmAcc .. => .arith .add
  | .subRmReg .. | .subImmRm .. | .subImmAcc .. => .arith .sub
  | .cmpRmReg .. | .cmpImmRm .. | .cmpImmAcc .. => .arith .cmp
  | .jo _ => .branch .jo
  | .jno _ => .branch .jno
  | .jb _ => .branch .jb
  | .jnb _ => .branch .jnb
  | .je _ => .branch .je
  | .jne _ => .branch .jne
  | .jbe _ => .branch .jbe
  | .ja _ => .branch .ja
  | .js _ => .branch .js
  | .jns _ => .branch .jns
  | .jp _ => .branch .jp
  | .jnp _ => .branch .jnp
  | .jl _ => .branch .jl
  | .jnl _ => .branch .jnl
  | .jle _ => .branch .jle
  | .jg _ => .branch .jg
  | .loopnz _ => .branch .loopnz
  | .loopz _ => .branch .loopz
  | .loop _ => .branch .loop
  | .jcxz _ => .branch .jcxz

/-- R70: the format. -/
def Instr.format : Instr → Format
  | .movRmReg .. | .addRmReg .. | .subRmReg .. | .cmpRmReg .. => .rm
  | .movImmRm .. | .addImmRm .. | .subImmRm .. | .cmpImmRm .. => .immRm
  | .movImmReg .. => .immReg
  | .addImmAcc .. | .subImmAcc .. | .cmpImmAcc .. => .acc
  | .jo _ | .jno _ | .jb _ | .jnb _ | .je _ | .jne _ | .jbe _ | .ja _ | .js _ | .jns _ | .jp _ | .jnp _
  | .jl _ | .jnl _ | .jle _ | .jg _ => .jcc
  | .loopnz _ | .loopz _ | .loop _ | .jcxz _ => .loop

/-- R102: the operation width. The branch formats have none. -/
def Instr.width : Instr → Option Width
  | .movRmReg _ w _ _ | .addRmReg _ w _ _ | .subRmReg _ w _ _ | .cmpRmReg _ w _ _
  | .movImmRm w _ _ | .addImmRm _ w _ _ | .subImmRm _ w _ _ | .cmpImmRm _ w _ _
  | .movImmReg w _ _ | .addImmAcc w _ | .subImmAcc w _ | .cmpImmAcc w _ => some w
  | .jo _ | .jno _ | .jb _ | .jnb _ | .je _ | .jne _ | .jbe _ | .ja _ | .js _ | .jns _ | .jp _ | .jnp _
  | .jl _ | .jnl _ | .jle _ | .jg _ | .loopnz _ | .loopz _ | .loop _ | .jcxz _ => none

/-- R82 to R86: the destination. -/
def Instr.dst : Instr → Option Place
  | .movRmReg d _ reg rm | .addRmReg d _ reg rm | .subRmReg d _ reg rm | .cmpRmReg d _ reg rm => some (rmDst d reg rm)
  | .movImmRm _ rm _ | .addImmRm _ _ rm _ | .subImmRm _ _ rm _ | .cmpImmRm _ _ rm _ => some rm.place
  | .movImmReg _ reg _ => some (.reg reg)
  | .addImmAcc w _ | .subImmAcc w _ | .cmpImmAcc w _ => some (.reg (accReg w))
  | .jo _ | .jno _ | .jb _ | .jnb _ | .je _ | .jne _ | .jbe _ | .ja _ | .js _ | .jns _ | .jp _ | .jnp _
  | .jl _ | .jnl _ | .jle _ | .jg _ | .loopnz _ | .loopz _ | .loop _ | .jcxz _ => none

/-- R82 to R86: the source. -/
def Instr.src : Instr → Option Operand
  | .movRmReg d _ reg rm | .addRmReg d _ reg rm | .subRmReg d _ reg rm | .cmpRmReg d _ reg rm => some (rmSrc d reg rm)
  | .movImmRm _ _ v | .addImmRm _ _ _ v | .subImmRm _ _ _ v | .cmpImmRm _ _ _ v | .movImmReg _ _ v
  | .addImmAcc _ v | .subImmAcc _ v | .cmpImmAcc _ v => some (.imm v)
  | .jo _ | .jno _ | .jb _ | .jnb _ | .je _ | .jne _ | .jbe _ | .ja _ | .js _ | .jns _ | .jp _ | .jnp _
  | .jl _ | .jnl _ | .jle _ | .jg _ | .loopnz _ | .loopz _ | .loop _ | .jcxz _ => none

/-- R86: the displacement byte of a branch. -/
def Instr.disp8 : Instr → Option Byte
  | .jo d | .jno d | .jb d | .jnb d | .je d | .jne d | .jbe d | .ja d | .js d | .jns d | .jp d | .jnp d
  | .jl d | .jnl d | .jle d | .jg d | .loopnz d | .loopz d | .loop d | .jcxz d => some d
  | .movRmReg .. | .movImmRm .. | .movImmReg .. | .addRmReg .. | .addImmRm .. | .addImmAcc ..
  | .subRmReg .. | .subImmRm .. | .subImmAcc .. | .cmpRmReg .. | .cmpImmRm .. | .cmpImmAcc .. => none

/-- R102: the decoded instruction, for an instruction found at offset `ip`. -/
def Instr.decoded (i : Instr) (ip : Nat) : Decoded where
  op     := i.op
  format := i.format
  width  := i.width
  dst    := i.dst
  src    := i.src
  disp8  := i.disp8
  len    := i.len
  next   := ip + i.len

/-! ### The opcode table's numbering of bits (assumption log entry 6) -/

/-- R100: the longest instruction, in bytes. -/
def maxLen : Nat := 6

/-- The `k` bytes of the number `w`, the most significant first: R70's file reads a row's `match` as `b0*256 + b1`. -/
def tableFieldBytes : Nat → Nat → List Byte
  | 0, _ => []
  | k + 1, w => BitVec.ofNat 8 (w >>> (8 * k)) :: tableFieldBytes k w

/-- The bytes of an instruction whose first `nbits` bits, numbered as the opcode table numbers them, are `w`, and whose
other bits are 0, up to the longest instruction. -/
def tableWordBytes (nbits w : Nat) : List Byte :=
  tableFieldBytes ((nbits + 7) / 8) w ++ List.replicate (maxLen - (nbits + 7) / 8) 0#8

/-- The instruction the decoder reads from a table word. -/
def decodeTableWord (nbits w : Nat) : Option Instr :=
  match decode (tableWordBytes nbits w) with
  | .ok (i, _) => some i
  | .error _ => none

end Sys2Proof
end

