-- ==== Sys2Proof/Config.lean ====
section
/-! DEFINITION. The implementation parameters of spec/00_scope.md R6 that are fixed for a launch.
NREG and XLEN are fixed by the source and stand in the types. CODE, its length and MEM_INIT are launch inputs
(Machine/State.lean, Machine/Fetch.lean). No rule of the spec leaves an instruction's result undefined, so there is no
free value here. -/

namespace Sys2Proof

/-- R6, R139, R140 (decision D5): how add, sub and cmp compute at byte width. -/
inductive ByteArith where
  | native8
  | wide16
  deriving DecidableEq, Repr

/-- R6, R162 (decision D6): how many bytes a byte-width memory store writes. `word` writes two, `byte` writes one. -/
inductive ByteStore where
  | word
  | byte
  deriving DecidableEq, Repr

/-- R6, R221 (decision D7): which branch conditions are evaluated. -/
inductive BranchEval where
  | reference
  | extended
  deriving DecidableEq, Repr

/-- R6: the parameters of one launch. -/
structure Config where
  memSize    : Nat
  ipBits     : Nat
  byteArith  : ByteArith
  byteStore  : ByteStore
  branchEval : BranchEval
  deriving DecidableEq, Repr

/-- R6: every parameter at the default the spec gives. -/
def Config.default : Config where
  memSize    := 65536
  ipBits     := 16
  byteArith  := .native8
  byteStore  := .word
  branchEval := .reference

/-- R6 (decision D20): the allowed range of MEM_SIZE. -/
abbrev Config.legal (c : Config) : Prop := 1 ≤ c.memSize ∧ c.memSize ≤ 65536

/-- R6, R27 (decision D2): the longest stream a launch accepts, `2^IP_BITS - 1` bytes. -/
def Config.maxCode (c : Config) : Nat := 2 ^ c.ipBits - 1

end Sys2Proof
end

