-- ==== Sys2Proof/Machine/State.lean ====
section
/-! DEFINITION. The state of the CORE as plain data (spec/10_state.md, 20_memory.md R50, 60_exceptions.md R240, R254),
the launch inputs a run keeps (R6, R13, R37), and the state after reset (R38, R270). -/

namespace Sys2Proof.Machine

/-- R240: why the CORE stopped. `endOfStream` is the normal end, the other five are faults. -/
inductive HaltReason where
  | endOfStream
  | unsupportedOpcode
  | truncatedStream
  | unimplementedDestination
  | unimplementedCondition
  | branchOutOfStream
  deriving DecidableEq, Repr

/-- R33: the status register RUN. -/
inductive Run where
  | running
  | halted (reason : HaltReason)
  deriving DecidableEq, Repr

/-- Why a step gives no next state. -/
inductive Fault where
  /-- Raised by `step` alone, when RUN is already Halted: "no step is possible" (R33, R251).
  Safe: the model stops where the CORE has stopped. The stop itself, the step that sets RUN, is a next state. -/
  | halted (reason : HaltReason)
  deriving DecidableEq, Repr

/-- Why the model declines. -/
inductive Refusal where
  /-- An instruction with no meaning yet, named as the opcode table names it. No arm of `exec` raises it. Safe. -/
  | notModelled (mnemonic : String)
  /-- Raised by `State.launch`: the stream is longer than `2^IP_BITS - 1` bytes, and "a longer stream is refused at
  launch" (R273(c)). Safe. -/
  | streamTooLong
  /-- Raised by `State.launch`: MEM_SIZE is outside R6's range 1..65536. R6 gives the range, the refusal is the model's
  (assumption log entry 15). Safe. -/
  | memSizeOutOfRange
  /-- Raised by `State.launch`: the initial memory is not a memory of MEM_SIZE bytes in the model's canonical form (R6's
  MEM_INIT; assumption log entry 4). Safe. -/
  | badMemInit
  deriving DecidableEq, Repr

/-- R20: the register file. R21's byte halves have no storage of their own. -/
structure RegFile where
  ax : Word
  cx : Word
  dx : Word
  bx : Word
  sp : Word
  bp : Word
  si : Word
  di : Word
  deriving DecidableEq, Repr

/-- R50: data memory, as the cells that do not hold what an unlisted address reads as. -/
abbrev Memory := List Host.Cell

/-- What an unlisted address reads as: 0x00, R38's default contents of MEM (assumption log entry 4). -/
def unlistedByte : Byte := 0#8

/-- The canonical form: addresses strictly rising, and no cell that says what an unlisted address says anyway. -/
abbrev Memory.wf (m : Memory) : Prop :=
  m.Pairwise (fun c c' => c.1 < c'.1) ∧ ∀ c ∈ m, c.2 ≠ unlistedByte

/-- R50: every cell lies in MEM[0..n-1]. -/
abbrev Memory.within (n : Nat) (m : Memory) : Prop := ∀ c ∈ m, c.1 < n

/-- R30: the two flags as the trace and the final state report them. -/
structure FlagSet where
  zf : Bool
  sf : Bool
  deriving DecidableEq, Repr

/-- R254: one entry of a trace record's `regs`. -/
structure RegChange where
  reg : Reg
  old : Word
  new : Word
  deriving DecidableEq, Repr

/-- R254: a trace record. Its `text` is a function of the instruction (R5, R118; Machine/Trace.lean
`TraceRecord.text`), so the record holds the instruction. -/
structure TraceRecord where
  instr : Instr
  regs  : List RegChange
  flags : Option (FlagSet × FlagSet)
  ipOld : Nat
  ipNew : Nat
  deriving DecidableEq, Repr

/-- R20 to R38: S = (R, ZF, SF, ip, RUN, MEM), then the launch inputs of R6 and R13, which no step changes, then the
trace port's output so far (R254, R255). -/
structure State where
  regs   : RegFile
  zf     : Bool
  sf     : Bool
  ip     : Nat
  run    : Run
  mem    : Memory
  code   : List Byte
  config : Config
  trace  : List TraceRecord
  deriving DecidableEq, Repr

/-- R38: every register at reset. -/
def RegFile.reset : RegFile where
  ax := 0x0000#16
  cx := 0x0000#16
  dx := 0x0000#16
  bx := 0x0000#16
  sp := 0x0000#16
  bp := 0x0000#16
  si := 0x0000#16
  di := 0x0000#16

/-- R38, R270: the state at the start of a launch with parameters `c`, program `code` and MEM_INIT `memInit`. -/
def State.start (c : Config) (code : List Byte) (memInit : Memory) : State where
  regs   := RegFile.reset
  zf     := false
  sf     := false
  ip     := 0
  run    := .running
  mem    := memInit
  code   := code
  config := c
  trace  := []

/-- R38, R270: the machine right after reset with R6's default parameters, MEM_INIT all zero and no program given. The
program is a launch input (R13), so none stands here (assumption log entry 5). -/
def State.reset : State := State.start Config.default [] []

end Sys2Proof.Machine
end

