-- ==== Sys2Proof/Machine/Ops.lean ====
section
/-! DEFINITION. The named operations over the state: registers through a slice, data memory, the flags, `ip`, and
stopping the CORE, which is the only exception it has. -/

namespace Sys2Proof.Machine

/-! ### Registers (10_state.md R20 to R24) -/

/-- R10 `R[i]`. -/
def RegFile.get (f : RegFile) : Reg → Word
  | .ax => f.ax
  | .cx => f.cx
  | .dx => f.dx
  | .bx => f.bx
  | .sp => f.sp
  | .bp => f.bp
  | .si => f.si
  | .di => f.di

/-- R10 `R[i] <- v`. -/
def RegFile.set (f : RegFile) (r : Reg) (v : Word) : RegFile :=
  match r with
  | .ax => { f with ax := v }
  | .cx => { f with cx := v }
  | .dx => { f with dx := v }
  | .bx => { f with bx := v }
  | .sp => { f with sp := v }
  | .bp => { f with bp := v }
  | .si => { f with si := v }
  | .di => { f with di := v }

/-- R23 `RegRead`: a byte slice is zero-extended. -/
def RegFile.read (f : RegFile) (r : RegOp) : Word :=
  match r.slice with
  | .word => f.get r.index
  | .lo => zext16 (lowByte (f.get r.index))
  | .hi => zext16 (highByte (f.get r.index))

/-- R24: what a register holds after a write of `v` through slice `s`. The untouched byte lane keeps its value, and
the data of either lane comes from bits 7:0 of `v`. -/
def Slice.merge (s : Slice) (old v : Word) : Word :=
  match s with
  | .word => v
  | .lo => joinBytes (highByte old) (lowByte v)
  | .hi => joinBytes (lowByte v) (lowByte old)

/-- R24 `RegWrite`. -/
def RegFile.write (f : RegFile) (r : RegOp) (v : Word) : RegFile :=
  f.set r.index (Slice.merge r.slice (f.get r.index) v)

/-- R10 `R[i]` of a state. -/
def State.reg (s : State) (r : Reg) : Word := s.regs.get r

/-- R10 `R[i] <- v`. -/
def State.setReg (s : State) (r : Reg) (v : Word) : State := { s with regs := s.regs.set r v }

/-- R24 `RegWrite` on a state. -/
def State.writeReg (s : State) (r : RegOp) (v : Word) : State := { s with regs := s.regs.write r v }

/-! ### Data memory (20_memory.md R50 to R57) -/

/-- The byte at an index of MEM. -/
def Memory.read : Memory → Nat → Byte
  | [], _ => unlistedByte
  | (k, b) :: m, a => if k = a then b else Memory.read m a

/-- Write the byte at an index of MEM, keeping the canonical form. -/
def Memory.write : Memory → Nat → Byte → Memory
  | [], a, v => if v = unlistedByte then [] else [(a, v)]
  | (k, b) :: m, a, v =>
    if a < k then
      if v = unlistedByte then (k, b) :: m else (a, v) :: (k, b) :: m
    else if a = k then
      if v = unlistedByte then m else (a, v) :: m
    else (k, b) :: Memory.write m a v

/-- R50: the index of MEM that a u16 address reaches, `a mod MEM_SIZE`. -/
def State.memIndex (s : State) (a : Word) : Nat := a.toNat % s.config.memSize

/-- R52 `MemRead(a, 1)`. -/
def State.memRead1 (s : State) (a : Word) : Byte := s.mem.read (s.memIndex a)

/-- R52 `MemRead(a, 2)`: little-endian, and the address of the high byte wraps at 2^16 (R56). -/
def State.memRead2 (s : State) (a : Word) : Word := joinBytes (s.memRead1 (a + 1#16)) (s.memRead1 a)

/-- R53 `MemWrite(a, 1, v)`. -/
def State.memWrite1 (s : State) (a : Word) (v : Byte) : State := { s with mem := s.mem.write (s.memIndex a) v }

/-- R53 `MemWrite(a, 2, v)`: the low byte first, then the high byte. -/
def State.memWrite2 (s : State) (a : Word) (v : Word) : State :=
  (s.memWrite1 a (lowByte v)).memWrite1 (a + 1#16) (highByte v)

/-! ### ip and the flags (R28, R142) -/

/-- R10 `ip <- t`. -/
def State.setIp (s : State) (t : Nat) : State := { s with ip := t }

/-- R142 `ZF <- z; SF <- s`. -/
def State.setFlags (s : State) (z n : Bool) : State := { s with zf := z, sf := n }

/-- R28, R102: the offset of the byte after the instruction `i` found at `ip`. -/
def State.next (s : State) (i : Instr) : Nat := s.ip + i.len

/-- The two flags together. -/
def State.flagSet (s : State) : FlagSet := ⟨s.zf, s.sf⟩

/-! ### Stopping (40_datapath.md R151, 60_exceptions.md R240 to R248) -/

/-- R10 `raise Fault(reason)` and `halt EndOfStream`: taking the CORE's only exception. RUN records the reason; every
register, flag, memory byte and `ip` keep the values they had at the start of the step (R151, R246). There is no handler
and no return: the only way out of Halted is a new launch (R251), which is `State.launch`. -/
def State.halt (s : State) (r : HaltReason) : State := { s with run := .halted r }

/-- R241, R242, R244: the reason a decode fault records. -/
def decodeFaultReason : DecodeFault → HaltReason
  | .unsupportedOpcode => .unsupportedOpcode
  | .truncatedStream => .truncatedStream

/-- R240: the code of a reason. -/
def HaltReason.code : HaltReason → Nat
  | .endOfStream => 0
  | .unsupportedOpcode => 1
  | .truncatedStream => 2
  | .unimplementedDestination => 3
  | .unimplementedCondition => 4
  | .branchOutOfStream => 5

end Sys2Proof.Machine
end

