-- ==== Sys2Proof/Machine/Flags.lean ====
section
/-! DEFINITION. The ALU (spec/40_datapath.md R137 to R141) and the zero/sign flag updater (R142). -/

namespace Sys2Proof.Machine

/-- R137: the ALU's functions. -/
inductive AluFn where
  | pass
  | add
  | sub
  deriving DecidableEq, Repr

/-- R137: the ALU's outputs, the result, the zero bit and the sign bit. -/
structure AluOut where
  r : Word
  z : Bool
  s : Bool
  deriving DecidableEq, Repr

/-- R138: the result at 16 bits, wrapping. -/
def AluFn.word (fn : AluFn) (a b : Word) : Word :=
  match fn with
  | .pass => b
  | .add => a + b
  | .sub => a - b

/-- R139: the result at 8 bits, wrapping. -/
def AluFn.byte (fn : AluFn) (a b : Byte) : Byte :=
  match fn with
  | .pass => b
  | .add => a + b
  | .sub => a - b

/-- R138: the ALU at word width. z is "all bits zero", s is bit 15. -/
def aluWord (fn : AluFn) (a b : Word) : AluOut :=
  { r := fn.word a b, z := fn.word a b == 0#16, s := (fn.word a b).getLsbD 15 }

/-- R139: the ALU at byte width under `native8`. s is bit 7. -/
def aluNative8 (fn : AluFn) (a b : Word) : AluOut :=
  let r8 := fn.byte (lowByte a) (lowByte b)
  { r := zext16 r8, z := r8 == 0#8, s := r8.getLsbD 7 }

/-- R140: the ALU at byte width under `wide16`: both bytes zero-extended, computed at 16 bits. -/
def aluWide16 (fn : AluFn) (a b : Word) : AluOut := aluWord fn (zext16 (lowByte a)) (zext16 (lowByte b))

/-- R137: the ALU. -/
def alu (c : Config) (fn : AluFn) (w : Width) (a b : Word) : AluOut :=
  match w, c.byteArith with
  | .word, _ => aluWord fn a b
  | .byte, .native8 => aluNative8 fn a b
  | .byte, .wide16 => aluWide16 fn a b

/-- R142: the flag updater. -/
def State.updateFlags (s : State) (o : AluOut) : State := s.setFlags o.z o.s

end Sys2Proof.Machine
end

