-- ==== Sys2Proof/Machine/Operands.lean ====
section
/-! DEFINITION. Operand resolution at execute time (spec/40_datapath.md R130 to R136). -/

namespace Sys2Proof.Machine

/-- R79, R131 `BaseValue`. -/
def State.baseValue (s : State) : Base → Word
  | .bxSi => s.reg .bx + s.reg .si
  | .bxDi => s.reg .bx + s.reg .di
  | .bpSi => s.reg .bp + s.reg .si
  | .bpDi => s.reg .bp + s.reg .di
  | .si => s.reg .si
  | .di => s.reg .di
  | .bp => s.reg .bp
  | .bx => s.reg .bx

/-- R131 `EA`: the sum is taken mod 2^16, and no segment base is added (R61). -/
def State.ea (s : State) (m : MemOperand) : Word :=
  match m.base with
  | .direct => m.disp
  | .regs b => s.baseValue b + m.disp

/-- R133, R134 `ReadOp`: a memory source is read as a full word, and a byte operation keeps its low byte. -/
def State.readOp (s : State) (w : Width) : Operand → Word
  | .reg r => s.regs.read r
  | .imm v => v
  | .mem m =>
    match w with
    | .word => s.memRead2 (s.ea m)
    | .byte => zext16 (lowByte (s.memRead2 (s.ea m)))

/-- R58, R135, R162: the number of bytes a memory destination of width `w` writes. -/
def storeBytes (c : Config) (w : Width) : Nat :=
  match w, c.byteStore with
  | .word, _ | .byte, .word => 2
  | .byte, .byte => 1

/-- R135: the store of a memory destination at address `a`. -/
def State.store (s : State) (w : Width) (a : Word) (v : Word) : State :=
  if storeBytes s.config w = 2 then s.memWrite2 a v else s.memWrite1 a (lowByte v)

/-- R135 `WriteOp`. -/
def State.writeOp (s : State) (w : Width) (p : Place) (v : Word) : State :=
  match p with
  | .reg r => s.writeReg r v
  | .mem m => s.store w (s.ea m) v

/-! ### The effective-address multiplexer as hardware (R132) -/

/-- R132: the A input (base select) of the three-input adder. -/
def State.eaA (s : State) (mode : BitVec 2) (rm : BitVec 3) : Word :=
  match rm with
  | 0b000#3 | 0b001#3 | 0b111#3 => s.reg .bx
  | 0b010#3 | 0b011#3 => s.reg .bp
  | 0b100#3 | 0b101#3 => 0#16
  | 0b110#3 => if mode = 0b00#2 then 0#16 else s.reg .bp

/-- R132: the B input (index select). -/
def State.eaB (s : State) (rm : BitVec 3) : Word :=
  match rm with
  | 0b000#3 | 0b010#3 | 0b100#3 => s.reg .si
  | 0b001#3 | 0b011#3 | 0b101#3 => s.reg .di
  | 0b110#3 | 0b111#3 => 0#16

/-- R132: the D input (displacement select), from the displacement bytes that follow the ModRegRm byte. -/
def eaD (mode : BitVec 2) (rm : BitVec 3) (disp : List Byte) : Word :=
  match mode, disp with
  | 0b00#2, [lo, hi] => if rm = 0b110#3 then joinBytes hi lo else 0#16
  | 0b01#2, [d] => sext16 d
  | 0b10#2, [lo, hi] => joinBytes hi lo
  | _, _ => 0#16

/-- R132: the three-input adder `EA = (A + B + D) mod 2^16`. -/
def State.eaAdder (s : State) (mode : BitVec 2) (rm : BitVec 3) (disp : List Byte) : Word :=
  s.eaA mode rm + s.eaB rm + eaD mode rm disp

end Sys2Proof.Machine
end

