-- ==== Sys2Proof/Machine/Arith.lean ====
section
/-! DEFINITION. The arithmetic family: add, sub and cmp in their three formats (spec/42_arith.md). -/

namespace Sys2Proof.Machine

/-- R189 `ArithExec`. The memory-destination check comes before every read and write (R151, R243). -/
def arithExec (fn : AluFn) (dst : Place) (src : Operand) (w : Width) (writeback : Bool) (next : Nat) (s : State) :
    Host.Outcome State Fault Refusal :=
  match dst with
  | .mem _ => .next (s.halt .unimplementedDestination)
  | .reg r =>
    let o := alu s.config fn w (s.readOp w (.reg r)) (s.readOp w src)
    let s' := if writeback then s.writeReg r o.r else s
    .next ((s'.updateFlags o).setIp next)

/-- R180: add register/memory with register. -/
def execAddRmReg (d : Dir) (w : Width) (reg : RegOp) (rm : RmOperand) (s : State) : Host.Outcome State Fault Refusal :=
  arithExec .add (rmDst d reg rm) (rmSrc d reg rm) w true (s.next (.addRmReg d w reg rm)) s

/-- R181: sub register/memory with register. -/
def execSubRmReg (d : Dir) (w : Width) (reg : RegOp) (rm : RmOperand) (s : State) : Host.Outcome State Fault Refusal :=
  arithExec .sub (rmDst d reg rm) (rmSrc d reg rm) w true (s.next (.subRmReg d w reg rm)) s

/-- R182: cmp register/memory with register. -/
def execCmpRmReg (d : Dir) (w : Width) (reg : RegOp) (rm : RmOperand) (s : State) : Host.Outcome State Fault Refusal :=
  arithExec .sub (rmDst d reg rm) (rmSrc d reg rm) w false (s.next (.cmpRmReg d w reg rm)) s

/-- R183: add immediate to register/memory. -/
def execAddImmRm (sx : Bool) (w : Width) (rm : RmOperand) (imm : Word) (s : State) :
    Host.Outcome State Fault Refusal :=
  arithExec .add rm.place (.imm imm) w true (s.next (.addImmRm sx w rm imm)) s

/-- R184: sub immediate to register/memory. -/
def execSubImmRm (sx : Bool) (w : Width) (rm : RmOperand) (imm : Word) (s : State) :
    Host.Outcome State Fault Refusal :=
  arithExec .sub rm.place (.imm imm) w true (s.next (.subImmRm sx w rm imm)) s

/-- R185: cmp immediate to register/memory. -/
def execCmpImmRm (sx : Bool) (w : Width) (rm : RmOperand) (imm : Word) (s : State) :
    Host.Outcome State Fault Refusal :=
  arithExec .sub rm.place (.imm imm) w false (s.next (.cmpImmRm sx w rm imm)) s

/-- R186: add immediate to accumulator. -/
def execAddImmAcc (w : Width) (imm : Word) (s : State) : Host.Outcome State Fault Refusal :=
  arithExec .add (.reg (accReg w)) (.imm imm) w true (s.next (.addImmAcc w imm)) s

/-- R187: sub immediate to accumulator. -/
def execSubImmAcc (w : Width) (imm : Word) (s : State) : Host.Outcome State Fault Refusal :=
  arithExec .sub (.reg (accReg w)) (.imm imm) w true (s.next (.subImmAcc w imm)) s

/-- R188: cmp immediate to accumulator. -/
def execCmpImmAcc (w : Width) (imm : Word) (s : State) : Host.Outcome State Fault Refusal :=
  arithExec .sub (.reg (accReg w)) (.imm imm) w false (s.next (.cmpImmAcc w imm)) s

end Sys2Proof.Machine
end

