-- ==== Sys2Proof/Machine/Branch.lean ====
section
/-! DEFINITION. Conditional jumps and loops (spec/43_branch.md), the branch target calculator (40_datapath.md R144,
R145) and the condition evaluator (R146). -/

namespace Sys2Proof.Machine

/-- R146: what the condition evaluator answers. -/
inductive Verdict where
  | taken
  | notTaken
  | unevaluable
  deriving DecidableEq, Repr

/-- R221: "Taken if ... else NotTaken". -/
def Verdict.ofBool : Bool → Verdict
  | true => .taken
  | false => .notTaken

/-- R221, `BRANCH_EVAL = reference`: only jne is evaluated. -/
def condReference (op : BranchOp) (zf : Bool) : Verdict :=
  match op with
  | .jne => Verdict.ofBool (!zf)
  | .jo | .jno | .jb | .jnb | .je | .jbe | .ja | .js | .jns | .jp | .jnp | .jl | .jnl | .jle | .jg
  | .loopnz | .loopz | .loop | .jcxz => .notTaken

/-- R223: the value a loop form writes to CX under `extended`. jcxz and the jumps write none. -/
def loopCount (op : BranchOp) (cx : Word) : Option Word :=
  match op with
  | .loop | .loopz | .loopnz => some (cx - 1#16)
  | .jo | .jno | .jb | .jnb | .je | .jne | .jbe | .ja | .js | .jns | .jp | .jnp | .jl | .jnl | .jle | .jg
  | .jcxz => none

/-- R221, R222, `BRANCH_EVAL = extended`. -/
def condExtended (op : BranchOp) (zf sf : Bool) (cx : Word) : Verdict :=
  match op with
  | .je => Verdict.ofBool zf
  | .jne => Verdict.ofBool (!zf)
  | .js => Verdict.ofBool sf
  | .jns => Verdict.ofBool (!sf)
  | .loop => Verdict.ofBool (cx - 1#16 != 0#16)
  | .loopz => Verdict.ofBool (cx - 1#16 != 0#16 && zf)
  | .loopnz => Verdict.ofBool (cx - 1#16 != 0#16 && !zf)
  | .jcxz => Verdict.ofBool (cx == 0#16)
  | .jo | .jno | .jb | .jnb | .jbe | .ja | .jp | .jnp | .jl | .jnl | .jle | .jg => .unevaluable

/-- R220, R221 `Cond`: the verdict, and cx' where there is one. -/
def State.cond (s : State) (op : BranchOp) : Verdict × Option Word :=
  match s.config.branchEval with
  | .reference => (condReference op s.zf, none)
  | .extended => (condExtended op s.zf s.sf (s.reg .cx), loopCount op (s.reg .cx))

/-- R144: the branch target, a signed integer that does not wrap. -/
def branchTarget (next : Nat) (disp8 : Byte) : Int := (next : Int) + disp8.toInt

/-- R145: the target lies outside 0..L. -/
def State.outOfStream (s : State) (target : Int) : Bool := decide (target < 0 ∨ (s.code.length : Int) < target)

/-- R220: `if cx' != none: R[1] <- cx'`. -/
def State.writeCount (s : State) : Option Word → State
  | none => s
  | some v => s.setReg .cx v

/-- R220 `BranchExec`: every check comes before any write. -/
def branchExec (op : BranchOp) (disp8 : Byte) (next : Nat) (s : State) : Host.Outcome State Fault Refusal :=
  match (s.cond op).1 with
  | .unevaluable => .next (s.halt .unimplementedCondition)
  | .notTaken => .next ((s.writeCount (s.cond op).2).setIp next)
  | .taken =>
    if s.outOfStream (branchTarget next disp8) then .next (s.halt .branchOutOfStream)
    else .next ((s.writeCount (s.cond op).2).setIp (branchTarget next disp8).toNat)

/-- R200: jo. -/
def execJo (disp8 : Byte) (s : State) : Host.Outcome State Fault Refusal :=
  branchExec .jo disp8 (s.next (.jo disp8)) s

/-- R201: jno. -/
def execJno (disp8 : Byte) (s : State) : Host.Outcome State Fault Refusal :=
  branchExec .jno disp8 (s.next (.jno disp8)) s

/-- R202: jb. -/
def execJb (disp8 : Byte) (s : State) : Host.Outcome State Fault Refusal :=
  branchExec .jb disp8 (s.next (.jb disp8)) s

/-- R203: jnb. -/
def execJnb (disp8 : Byte) (s : State) : Host.Outcome State Fault Refusal :=
  branchExec .jnb disp8 (s.next (.jnb disp8)) s

/-- R204: je. -/
def execJe (disp8 : Byte) (s : State) : Host.Outcome State Fault Refusal :=
  branchExec .je disp8 (s.next (.je disp8)) s

/-- R205: jne. -/
def execJne (disp8 : Byte) (s : State) : Host.Outcome State Fault Refusal :=
  branchExec .jne disp8 (s.next (.jne disp8)) s

/-- R206: jbe. -/
def execJbe (disp8 : Byte) (s : State) : Host.Outcome State Fault Refusal :=
  branchExec .jbe disp8 (s.next (.jbe disp8)) s

/-- R207: ja. -/
def execJa (disp8 : Byte) (s : State) : Host.Outcome State Fault Refusal :=
  branchExec .ja disp8 (s.next (.ja disp8)) s

/-- R208: js. -/
def execJs (disp8 : Byte) (s : State) : Host.Outcome State Fault Refusal :=
  branchExec .js disp8 (s.next (.js disp8)) s

/-- R209: jns. -/
def execJns (disp8 : Byte) (s : State) : Host.Outcome State Fault Refusal :=
  branchExec .jns disp8 (s.next (.jns disp8)) s

/-- R210: jp. -/
def execJp (disp8 : Byte) (s : State) : Host.Outcome State Fault Refusal :=
  branchExec .jp disp8 (s.next (.jp disp8)) s

/-- R211: jnp. -/
def execJnp (disp8 : Byte) (s : State) : Host.Outcome State Fault Refusal :=
  branchExec .jnp disp8 (s.next (.jnp disp8)) s

/-- R212: jl. -/
def execJl (disp8 : Byte) (s : State) : Host.Outcome State Fault Refusal :=
  branchExec .jl disp8 (s.next (.jl disp8)) s

/-- R213: jnl. -/
def execJnl (disp8 : Byte) (s : State) : Host.Outcome State Fault Refusal :=
  branchExec .jnl disp8 (s.next (.jnl disp8)) s

/-- R214: jle. -/
def execJle (disp8 : Byte) (s : State) : Host.Outcome State Fault Refusal :=
  branchExec .jle disp8 (s.next (.jle disp8)) s

/-- R215: jg. -/
def execJg (disp8 : Byte) (s : State) : Host.Outcome State Fault Refusal :=
  branchExec .jg disp8 (s.next (.jg disp8)) s

/-- R216: loopnz. -/
def execLoopnz (disp8 : Byte) (s : State) : Host.Outcome State Fault Refusal :=
  branchExec .loopnz disp8 (s.next (.loopnz disp8)) s

/-- R217: loopz. -/
def execLoopz (disp8 : Byte) (s : State) : Host.Outcome State Fault Refusal :=
  branchExec .loopz disp8 (s.next (.loopz disp8)) s

/-- R218: loop. -/
def execLoop (disp8 : Byte) (s : State) : Host.Outcome State Fault Refusal :=
  branchExec .loop disp8 (s.next (.loop disp8)) s

/-- R219: jcxz. -/
def execJcxz (disp8 : Byte) (s : State) : Host.Outcome State Fault Refusal :=
  branchExec .jcxz disp8 (s.next (.jcxz disp8)) s

end Sys2Proof.Machine
end

