-- ==== Sys2Proof/Machine/Mov.lean ====
section
/-! DEFINITION. The mov family (spec/41_mov.md). No flag is written. -/

namespace Sys2Proof.Machine

/-- R160, R161, R163: the effect the three forms share, `WriteOp(dst, w, v); ip <- next`. The byte store of R162 is
`State.store`. -/
def movExec (w : Width) (dst : Place) (v : Word) (next : Nat) (s : State) : Host.Outcome State Fault Refusal :=
  .next ((s.writeOp w dst v).setIp next)

/-- R160: mov register/memory with register. -/
def execMovRmReg (d : Dir) (w : Width) (reg : RegOp) (rm : RmOperand) (s : State) : Host.Outcome State Fault Refusal :=
  movExec w (rmDst d reg rm) (s.readOp w (rmSrc d reg rm)) (s.next (.movRmReg d w reg rm)) s

/-- R161: mov immediate to register/memory. -/
def execMovImmRm (w : Width) (rm : RmOperand) (imm : Word) (s : State) : Host.Outcome State Fault Refusal :=
  movExec w rm.place imm (s.next (.movImmRm w rm imm)) s

/-- R163: mov immediate to register. -/
def execMovImmReg (w : Width) (reg : RegOp) (imm : Word) (s : State) : Host.Outcome State Fault Refusal :=
  movExec w (.reg reg) imm (s.next (.movImmReg w reg imm)) s

end Sys2Proof.Machine
end

