-- ==== Sys2Proof/Machine/Dispatch.lean ====
section
/-! DEFINITION. The dispatch of R154: one arm per constructor of `Instr`. -/

namespace Sys2Proof.Machine

def exec (i : Instr) (s : State) : Host.Outcome State Fault Refusal :=
  match i with
  -- 41_mov.md
  | .movRmReg d w reg rm => Sys2Proof.Machine.execMovRmReg d w reg rm s
  | .movImmRm w rm imm => Sys2Proof.Machine.execMovImmRm w rm imm s
  | .movImmReg w reg imm => Sys2Proof.Machine.execMovImmReg w reg imm s
  -- 42_arith.md
  | .addRmReg d w reg rm => Sys2Proof.Machine.execAddRmReg d w reg rm s
  | .addImmRm sx w rm imm => Sys2Proof.Machine.execAddImmRm sx w rm imm s
  | .addImmAcc w imm => Sys2Proof.Machine.execAddImmAcc w imm s
  | .subRmReg d w reg rm => Sys2Proof.Machine.execSubRmReg d w reg rm s
  | .subImmRm sx w rm imm => Sys2Proof.Machine.execSubImmRm sx w rm imm s
  | .subImmAcc w imm => Sys2Proof.Machine.execSubImmAcc w imm s
  | .cmpRmReg d w reg rm => Sys2Proof.Machine.execCmpRmReg d w reg rm s
  | .cmpImmRm sx w rm imm => Sys2Proof.Machine.execCmpImmRm sx w rm imm s
  | .cmpImmAcc w imm => Sys2Proof.Machine.execCmpImmAcc w imm s
  -- 43_branch.md
  | .jo disp8 => Sys2Proof.Machine.execJo disp8 s
  | .jno disp8 => Sys2Proof.Machine.execJno disp8 s
  | .jb disp8 => Sys2Proof.Machine.execJb disp8 s
  | .jnb disp8 => Sys2Proof.Machine.execJnb disp8 s
  | .je disp8 => Sys2Proof.Machine.execJe disp8 s
  | .jne disp8 => Sys2Proof.Machine.execJne disp8 s
  | .jbe disp8 => Sys2Proof.Machine.execJbe disp8 s
  | .ja disp8 => Sys2Proof.Machine.execJa disp8 s
  | .js disp8 => Sys2Proof.Machine.execJs disp8 s
  | .jns disp8 => Sys2Proof.Machine.execJns disp8 s
  | .jp disp8 => Sys2Proof.Machine.execJp disp8 s
  | .jnp disp8 => Sys2Proof.Machine.execJnp disp8 s
  | .jl disp8 => Sys2Proof.Machine.execJl disp8 s
  | .jnl disp8 => Sys2Proof.Machine.execJnl disp8 s
  | .jle disp8 => Sys2Proof.Machine.execJle disp8 s
  | .jg disp8 => Sys2Proof.Machine.execJg disp8 s
  | .loopnz disp8 => Sys2Proof.Machine.execLoopnz disp8 s
  | .loopz disp8 => Sys2Proof.Machine.execLoopz disp8 s
  | .loop disp8 => Sys2Proof.Machine.execLoop disp8 s
  | .jcxz disp8 => Sys2Proof.Machine.execJcxz disp8 s

end Sys2Proof.Machine
end

