-- ==== Sys2Proof/Machine/Fetch.lean ====
section
/-! DEFINITION. Fetching from the program, and the launch that gives the CORE its program
(spec/10_state.md R27, R37; 60_exceptions.md R256; 70_reset_and_hazards.md R270, R271, R273). -/

namespace Sys2Proof.Machine

/-- R27, R37: the bytes of CODE from `ip` on. Fetch reads CODE, never MEM (R65), and nothing past L (R101). -/
def State.fetch (s : State) : List Byte := s.code.drop s.ip

/-- R150: `ip = L`, the end of the stream. -/
def State.atEnd (s : State) : Bool := s.ip == s.code.length

/-- A stream with `bs` written at offset `k`, filled up with 0x00 where the stream is shorter than `k`. -/
def placeBytes (code : List Byte) (k : Nat) (bs : List Byte) : List Byte :=
  code.take k ++ List.replicate (k - code.length) 0#8 ++ bs ++ code.drop (k + bs.length)

/-- R256, R270: launch the CORE with parameters `c`, program `code` and MEM_INIT `memInit`. A stream
longer than `2^IP_BITS - 1` is refused (R27, R273(c)). R6 bounds MEM_SIZE, and that a launch outside the bound is refused is
the model's choice (assumption log entry 15), as is the form of MEM_INIT (entry 4). -/
def State.launch (c : Config) (code : List Byte) (memInit : Memory) : Host.Outcome State Fault Refusal :=
  if ¬ c.legal then .refused .memSizeOutOfRange
  else if c.maxCode < code.length then .refused .streamTooLong
  else if ¬ (memInit.wf ∧ memInit.within c.memSize) then .refused .badMemInit
  else .next (State.start c code memInit)

end Sys2Proof.Machine
end

