-- ==== Sys2Proof/Machine/Listing.lean ====
section
/-! DEFINITION. The listing text of a decoded instruction (spec/30_encoding.md R118 to R124). R5: the CORE's text output
is a function of the decoded instruction. -/

namespace Sys2Proof.Machine

/-- R119: the word registers' names. -/
def regName : Reg → String
  | .ax => "ax"
  | .cx => "cx"
  | .dx => "dx"
  | .bx => "bx"
  | .sp => "sp"
  | .bp => "bp"
  | .si => "si"
  | .di => "di"

/-- R119: the low halves' names. SP, BP, SI and DI have none (R21) and no instruction's bytes name one. -/
def loName : Reg → String
  | .ax => "al"
  | .cx => "cl"
  | .dx => "dl"
  | .bx => "bl"
  | r => regName r

/-- R119: the high halves' names, as `loName`. -/
def hiName : Reg → String
  | .ax => "ah"
  | .cx => "ch"
  | .dx => "dh"
  | .bx => "bh"
  | r => regName r

/-- R119: a register operand's name. -/
def regOpName (r : RegOp) : String :=
  match r.slice with
  | .word => regName r.index
  | .lo => loName r.index
  | .hi => hiName r.index

/-- R120: a base expression, its registers joined by ` + `. -/
def baseName : Base → String
  | .bxSi => "bx + si"
  | .bxDi => "bx + di"
  | .bpSi => "bp + si"
  | .bpDi => "bp + di"
  | .si => "si"
  | .di => "di"
  | .bp => "bp"
  | .bx => "bx"

/-- R120: the displacement, as `sint16` reads it, after a base expression. -/
def dispText (disp : Word) : String :=
  if 0 < disp.toInt then " + " ++ toString disp.toInt.natAbs
  else if disp.toInt < 0 then " - " ++ toString disp.toInt.natAbs
  else ""

/-- R120: a memory operand. A direct address prints unsigned. -/
def memText (m : MemOperand) : String :=
  match m.base with
  | .direct => "[" ++ toString m.disp.toNat ++ "]"
  | .regs b => "[" ++ baseName b ++ dispText m.disp ++ "]"

/-- R121: an immediate at the operand width, unsigned decimal. -/
def immText (w : Width) (v : Word) : String :=
  match w with
  | .byte => toString (lowByte v).toNat
  | .word => toString v.toNat

/-- R122: the width word before a memory destination with an immediate source. -/
def widthWord : Width → String
  | .byte => "byte "
  | .word => "word "

/-- R119, R120: a destination. -/
def placeText : Place → String
  | .reg r => regOpName r
  | .mem m => memText m

/-- R119 to R121: a source. -/
def operandText (w : Width) : Operand → String
  | .reg r => regOpName r
  | .mem m => memText m
  | .imm v => immText w v

/-- R122: the destination of a two-operand line. -/
def dstText (w : Width) : Place → Operand → String
  | .mem m, .imm _ => widthWord w ++ memText m
  | p, _ => placeText p

/-- R95, R96: the branches' listing spellings. -/
def branchName : BranchOp → String
  | .jo => "jo"
  | .jno => "jno"
  | .jb => "jb"
  | .jnb => "jnb"
  | .je => "je"
  | .jne => "jne"
  | .jbe => "jbe"
  | .ja => "ja"
  | .js => "js"
  | .jns => "jns"
  | .jp => "jp"
  | .jnp => "jnp"
  | .jl => "jl"
  | .jnl => "jnl"
  | .jle => "jle"
  | .jg => "jg"
  | .loopnz => "loopnz"
  | .loopz => "loopz"
  | .loop => "loop"
  | .jcxz => "jcxz"

/-- R119: the mnemonic. -/
def opName : Op → String
  | .mov => "mov"
  | .arith .add => "add"
  | .arith .sub => "sub"
  | .arith .cmp => "cmp"
  | .branch b => branchName b

/-- R123: `$` and the signed offset of the target from the instruction's first byte. -/
def targetText (disp8 : Byte) : String :=
  let n := disp8.toInt + 2
  if 0 ≤ n then "$+" ++ toString n.natAbs else "$-" ++ toString n.natAbs

/-- R118: the operands of the line. -/
def operandsText (i : Instr) : String :=
  match i.dst, i.src, i.width, i.disp8 with
  | some p, some o, some w, _ => dstText w p o ++ ", " ++ operandText w o
  | _, _, _, some d => targetText d
  | _, _, _, none => ""

/-- R118: the listing line of an instruction. -/
def listingText (i : Instr) : String := opName i.op ++ " " ++ operandsText i

end Sys2Proof.Machine
end

