-- ==== Sys2Proof/Machine/Trace.lean ====
section
/-! DEFINITION. The trace port (spec/60_exceptions.md R254), its text, and what the host reads after a run (R255). -/

namespace Sys2Proof.Machine

/-- R254, R255: the source's order of the registers, A, B, C, D, SP, BP, SI, DI. -/
def sourceOrder : List Reg := [.ax, .bx, .cx, .dx, .sp, .bp, .si, .di]

/-- R254 `regs`: the word registers whose value differs between the start `s` and the end `s'` of a step. -/
def regChanges (s s' : State) : List RegChange :=
  sourceOrder.filterMap fun r => if s.reg r = s'.reg r then none else some ⟨r, s.reg r, s'.reg r⟩

/-- R254 `flags`: present only if ZF or SF changed. -/
def flagChange (s s' : State) : Option (FlagSet × FlagSet) :=
  if s.flagSet = s'.flagSet then none else some (s.flagSet, s'.flagSet)

/-- R254: the record of a step that ran `i` from `s` to `s'`. -/
def traceRecord (i : Instr) (s s' : State) : TraceRecord where
  instr := i
  regs  := regChanges s s'
  flags := flagChange s s'
  ipOld := s.ip
  ipNew := s'.ip

/-- R150 `emit Trace(S, S')`: append the record to what has been emitted. -/
def State.emit (s' : State) (t : TraceRecord) : State := { s' with trace := s'.trace ++ [t] }

/-- R150, R254: the end of a step that ran `i` from `s`. A step that faulted emits no record. -/
def finishStep (i : Instr) (s : State) : Host.Outcome State Fault Refusal → Host.Outcome State Fault Refusal
  | .next s' =>
    match s'.run with
    | .running => .next (s'.emit (traceRecord i s s'))
    | .halted _ => .next s'
  | .fault f => .fault f
  | .refused r => .refused r

/-! ### Text (R118, R254) -/

/-- R254 `text`: the listing line of the instruction. -/
def TraceRecord.text (t : TraceRecord) : String := listingText t.instr

/-- R254: lower-case hexadecimal with `0x` and no leading zeros. -/
def hexText (n : Nat) : String := "0x" ++ String.ofList (Nat.toDigits 16 n)

/-- R254: the set flags as letters, Z then S. -/
def flagText (f : FlagSet) : String := (if f.zf then "Z" else "") ++ (if f.sf then "S" else "")

/-- R254: `name:old->new` of a register. -/
def regChangeText (c : RegChange) : String :=
  regName c.reg ++ ":" ++ hexText c.old.toNat ++ "->" ++ hexText c.new.toNat

/-- R254: the items of the comment, in order. -/
def TraceRecord.items (t : TraceRecord) : List String :=
  t.regs.map regChangeText
    ++ (match t.flags with
        | some (a, b) => ["flags:" ++ flagText a ++ "->" ++ flagText b]
        | none => [])
    ++ ["ip:" ++ hexText t.ipOld ++ "->" ++ hexText t.ipNew]

/-- R118, R254: the line with its comment, ` ; ` between the items. -/
def TraceRecord.line (t : TraceRecord) : String := " ; ".intercalate (t.text :: t.items)

/-- R13, R255: the listing so far, one line per executed instruction. -/
def State.listing (s : State) : List String := s.trace.map TraceRecord.text

/-! ### The final state (R255) -/

/-- R255: what the host reads after Halted. -/
structure FinalState where
  regs  : List (Reg × Word)
  flags : FlagSet
  mem   : Memory
  ip    : Nat
  run   : Run
  deriving DecidableEq, Repr

/-- R255: "the eight word-register values and the set of currently-set flags", and MEM, ip and RUN. Nothing can be read
while the CORE runs. -/
def State.finalState (s : State) : Option FinalState :=
  match s.run with
  | .running => none
  | .halted _ => some ⟨sourceOrder.map fun r => (r, s.reg r), s.flagSet, s.mem, s.ip, s.run⟩

end Sys2Proof.Machine
end

