-- ==== Sys2Proof/Machine/Step.lean ====
section
/-! DEFINITION. One step of the CORE (spec/40_datapath.md R150), and placing one instruction where the next step reads it. -/

namespace Sys2Proof.Machine

/-- R150 `Step(S)`, enabled only when RUN = Running (R33). A fault is a next state in which RUN records it (R151). -/
def step (s : State) : Host.Outcome State Fault Refusal :=
  match s.run with
  | .halted r => .fault (.halted r)
  | .running =>
    if s.atEnd then .next (s.halt .endOfStream)
    else
      match decode s.fetch with
      | .error f => .next (s.halt (decodeFaultReason f))
      | .ok (i, _) => finishStep i s (exec i s)

/-- The state whose next step runs the instruction of a table word: its bytes stand in CODE at `ip`, and RUN is Running.
It stands for the launch's load of a program (assumption log entries 5 and 6). -/
def State.withFetchWord (s : State) (nbits w : Nat) : State :=
  { s with code := placeBytes s.code s.ip (tableWordBytes nbits w), run := .running }

end Sys2Proof.Machine
end

