-- ==== Sys2Proof/Safety.lean ====
section
/-! DEFINITION. What a good state and a good run are, in the terms the statements use. -/

namespace Sys2Proof.Machine

/-- The invariant of a run: the launch was legal (R6, R273(c)), `0 <= ip <= L` (R27, R29), and data memory is in its
canonical form and inside MEM[0..MEM_SIZE-1] (R50). -/
abbrev State.inv (s : State) : Prop :=
  s.config.legal ∧ s.code.length ≤ s.config.maxCode ∧ s.ip ≤ s.code.length ∧ s.mem.wf ∧ s.mem.within s.config.memSize

/-- The states a run from `s` passes through. -/
inductive Reaches (s : State) : State → Prop where
  | here : Reaches s s
  | step {t u : State} : Reaches s t → Machine.step t = .next u → Reaches s u

/-- R240, R241: the run ended normally. -/
abbrev State.endedNormally (s : State) : Prop := s.run = .halted .endOfStream

/-- R240: the run ended in one of the five faults. -/
abbrev State.faulted (s : State) : Prop := ∃ r, s.run = .halted r ∧ r ≠ .endOfStream

/-! ### What an instruction leaves alone, and what it writes: the words the frame statements use -/

/-- Every register holds in `t` what it held in `s`. -/
abbrev State.sameRegs (s t : State) : Prop := ∀ q, t.reg q = s.reg q

/-- ZF and SF hold in `t` what they held in `s` (R30, R31). -/
abbrev State.sameFlags (s t : State) : Prop := t.zf = s.zf ∧ t.sf = s.sf

/-- Data memory is unchanged: the memory itself, and so the byte every address reads. -/
abbrev State.sameMem (s t : State) : Prop := t.mem = s.mem ∧ ∀ a, t.memRead1 a = s.memRead1 a

/-- RUN, the program, the parameters and the trace are unchanged. -/
abbrev State.sameControl (s t : State) : Prop :=
  t.run = s.run ∧ t.code = s.code ∧ t.config = s.config ∧ t.trace = s.trace

/-- R24: the register operand `r` was written with `v`. The slice's own byte lanes hold bits of `v`, the other byte lane
and every other register hold what they held. -/
abbrev State.wroteReg (s t : State) (r : RegOp) (v : Word) : Prop :=
  (∀ q, q ≠ r.index → t.reg q = s.reg q) ∧
  match r.slice with
  | .word => t.reg r.index = v
  | .lo => lowByte (t.reg r.index) = lowByte v ∧ highByte (t.reg r.index) = highByte (s.reg r.index)
  | .hi => highByte (t.reg r.index) = lowByte v ∧ lowByte (t.reg r.index) = lowByte (s.reg r.index)

/-- R53: `n` bytes of `v` were stored at the address `a`, the low byte first, and every address that reaches none of those
`n` bytes reads as before. Where both bytes reach one location the high byte remains. -/
abbrev State.wroteMem (s t : State) (n : Nat) (a v : Word) : Prop :=
  if n = 2 then
    t.memRead1 (a + 1#16) = highByte v
      ∧ (s.memIndex a ≠ s.memIndex (a + 1#16) → t.memRead1 a = lowByte v)
      ∧ ∀ x, s.memIndex x ≠ s.memIndex a → s.memIndex x ≠ s.memIndex (a + 1#16) → t.memRead1 x = s.memRead1 x
  else
    t.memRead1 a = lowByte v ∧ ∀ x, s.memIndex x ≠ s.memIndex a → t.memRead1 x = s.memRead1 x

end Sys2Proof.Machine
end

