-- ==== Sys2Proof/Certificates/Slice0/Obligations.lean ====
section
/-! DEFINITION. The statements about the CORE for the provers. Each one's docstring names the rule of spec/ it comes from.
Every state `s` carries its own parameters (`s.config`), so a statement holds for every setting of R6's parameters and for
every MEM_INIT unless it names one. -/

open Sys2Proof Sys2Proof.Machine

/-! ### Encoding (30_encoding.md) -/

/-- R104 and R71 to R90: decoding the bytes of a well-formed instruction gives it back, with every field of every form at
every value, whatever bytes follow. -/
def Obligations.EncodedInstructionDecodesBack : Prop :=
  ∀ (i : Instr) (rest : List Byte), i.wf = true → decode (encode i ++ rest) = .ok (i, rest)

/-- R104, R99: a decoded instruction is well formed, and the bytes read are exactly its encoding. No two byte sequences
decode to one instruction, and no bit of an instruction is dropped. -/
def Obligations.DecodedBytesAreTheEncoding : Prop :=
  ∀ (bs : List Byte) (i : Instr) (rest : List Byte),
    decode bs = .ok (i, rest) → i.wf = true ∧ bs = encode i ++ rest

/-- R100: the length is the one the instruction's first two bytes tell, it lies in 2 to 6, it is what the decoder
consumes, and the decoder's answer depends on those bytes alone. -/
def Obligations.LengthDependsOnOwnBytes : Prop :=
  ∀ (b0 : Byte) (bs : List Byte) (i : Instr) (rest : List Byte), decode (b0 :: bs) = .ok (i, rest) →
    (∃ c, classify b0 = some c ∧ i.len = lenOfBytes c b0 (bs.headD 0#8)) ∧
    2 ≤ i.len ∧ i.len ≤ 6 ∧ (b0 :: bs).length = i.len + rest.length ∧
    ∀ rest', decode ((b0 :: bs).take i.len ++ rest') = .ok (i, rest')

/-- R97: the accepted opcode bytes are the 64 listed. Every other byte faults with UnsupportedOpcode whatever follows it;
an accepted byte alone is a truncated instruction. -/
def Obligations.OpcodeBytesAccepted : Prop :=
  ∀ b0 : Byte,
    if b0.toNat ≤ 0x05 ∨ (0x28 ≤ b0.toNat ∧ b0.toNat ≤ 0x2D) ∨ (0x38 ≤ b0.toNat ∧ b0.toNat ≤ 0x3D) ∨
        (0x70 ≤ b0.toNat ∧ b0.toNat ≤ 0x83) ∨ (0x88 ≤ b0.toNat ∧ b0.toNat ≤ 0x8B) ∨
        (0xB0 ≤ b0.toNat ∧ b0.toNat ≤ 0xBF) ∨ b0.toNat = 0xC6 ∨ b0.toNat = 0xC7 ∨
        (0xE0 ≤ b0.toNat ∧ b0.toNat ≤ 0xE3)
    then classify b0 ≠ none ∧ decode [b0] = .error .truncatedStream
    else classify b0 = none ∧ ∀ rest, decode (b0 :: rest) = .error .unsupportedOpcode

/-- R93, R94: the arithmetic codes, in the opcode byte and in byte 2, select the operation; a byte 2 whose `reg` field selects
nothing faults with UnsupportedOpcode as soon as it is read, even when later bytes are missing. -/
def Obligations.RegFieldSelectsTheOperation : Prop :=
  (∀ c : BitVec 3, ArithOp.ofCode c =
    if c = 0b000#3 then some .add else if c = 0b101#3 then some .sub else if c = 0b111#3 then some .cmp else none) ∧
  (∀ b0 : Byte, (b0 &&& 0xC4#8 = 0x00#8 ∨ b0 &&& 0xC6#8 = 0x04#8) → ArithOp.ofCode (opcodeArithCode b0) = none →
    classify b0 = none) ∧
  (∀ (b0 b1 : Byte) (rest : List Byte), 0x80 ≤ b0.toNat → b0.toNat ≤ 0x83 →
    (decode (b0 :: b1 :: rest) = .error .unsupportedOpcode ↔ ArithOp.ofCode (regField b1) = none)) ∧
  (∀ (b0 b1 : Byte) (rest : List Byte), b0.toNat = 0xC6 ∨ b0.toNat = 0xC7 →
    (decode (b0 :: b1 :: rest) = .error .unsupportedOpcode ↔ regField b1 ≠ 0b000#3)) ∧
  (∀ (b0 b1 : Byte) (rest rest' : List Byte) (i : Instr), decode (b0 :: b1 :: rest) = .ok (i, rest') →
    (0x80 ≤ b0.toNat → b0.toNat ≤ 0x83 → ∃ a, ArithOp.ofCode (regField b1) = some a ∧ i.op = .arith a) ∧
    (b0 &&& 0xC4#8 = 0x00#8 ∨ b0 &&& 0xC6#8 = 0x04#8 →
      ∃ a, ArithOp.ofCode (opcodeArithCode b0) = some a ∧ i.op = .arith a))

/-- R101: every proper beginning of an instruction's bytes is a truncated stream. -/
def Obligations.TruncatedEncodingFaults : Prop :=
  ∀ (i : Instr) (n : Nat), i.wf = true → n < (encode i).length →
    decode ((encode i).take n) = .error .truncatedStream

/-- R106: a few of the spec's decode vectors, one per format. -/
def Obligations.DecodeVectors : Prop :=
  decode [0x89#8, 0xD9#8] = .ok (.movRmReg .toRm .word ⟨.bx, .word⟩ (.reg ⟨.cx, .word⟩), []) ∧
  decode [0x8B#8, 0x1E#8, 0x00#8, 0x10#8] = .ok (.movRmReg .toReg .word ⟨.bx, .word⟩ (.mem (.direct 0x1000#16)), []) ∧
  decode [0xC7#8, 0x86#8, 0x10#8, 0x00#8, 0x34#8, 0x12#8] =
    .ok (.movImmRm .word (.mem (.disp16 .bp 0x0010#16)) 0x1234#16, []) ∧
  decode [0xB4#8, 0xAB#8] = .ok (.movImmReg .byte ⟨.ax, .hi⟩ 0x00AB#16, []) ∧
  decode [0x83#8, 0xE9#8, 0xFF#8] = .ok (.subImmRm true .word (.reg ⟨.cx, .word⟩) 0xFFFF#16, []) ∧
  decode [0x3C#8, 0x09#8] = .ok (.cmpImmAcc .byte 0x0009#16, []) ∧
  decode [0x75#8, 0xFE#8] = .ok (.jne 0xFE#8, []) ∧
  decode [0xE2#8, 0xF9#8] = .ok (.loop 0xF9#8, [])

/-! ### The step (40_datapath.md R150, 60_exceptions.md) -/

/-- R150: when the bytes at `ip` decode to `i`, the step is exec of `i`. A step that did not fault then appends its trace
record; one that faulted appends none (R254). That the records stand in State is the model's choice (assumption log entry
3). -/
def Obligations.StepRunsDecodedInstruction : Prop :=
  ∀ (s : State) (i : Instr) (rest : List Byte), s.run = .running → decode s.fetch = .ok (i, rest) →
    ∃ t, exec i s = .next t ∧
      (t.run = .running → step s = .next { t with trace := t.trace ++ [traceRecord i s t] }) ∧
      (t.run ≠ .running → step s = .next t)

/-- R241: a step that starts with `ip = L` sets RUN to Halted(EndOfStream) and writes nothing else; no other step does; and
with L = 0 the first step of a launch is that one, with the reset state left as it was. -/
def Obligations.EndOfStreamEndsTheRun : Prop :=
  (∀ s : State, s.run = .running → s.ip = s.code.length → step s = .next { s with run := .halted .endOfStream }) ∧
  (∀ s t : State, s.run = .running → step s = .next t → t.run = .halted .endOfStream → s.ip = s.code.length) ∧
  (∀ (c : Config) (m : Memory) (s : State), State.launch c [] m = .next s →
    step s = .next { State.start c [] m with run := .halted .endOfStream })

/-- R242, R244: a decode fault is recorded in RUN, and nothing else changes: `ip` names the opcode byte. -/
def Obligations.DecodeFaultHalts : Prop :=
  ∀ s : State, s.run = .running → s.ip ≠ s.code.length →
    (decode s.fetch = .error .unsupportedOpcode → step s = .next { s with run := .halted .unsupportedOpcode }) ∧
    (decode s.fetch = .error .truncatedStream → step s = .next { s with run := .halted .truncatedStream })

/-- R33, R251: once RUN is Halted no step is possible. That the model's step answers a named fault there is the model's
form for it (assumption log entry 1). -/
def Obligations.HaltedCoreNeverSteps : Prop :=
  ∀ (s : State) (r : HaltReason), s.run = .halted r → step s = .fault (.halted r)

/-- R246, R151: a step that faults leaves every register, flag, memory byte and `ip`, and what was emitted, as they were.
It holds for every instruction, every fault and every parameter. -/
def Obligations.FaultChangesOnlyRun : Prop :=
  ∀ s t : State, s.run = .running → step s = .next t → t.run ≠ .running → t = { s with run := t.run }

/-- R249, R240: what each stop means. Each reason is recorded exactly when its own cause applies and no earlier one does. -/
def Obligations.EachStopHasItsCause : Prop :=
  ∀ s t : State, s.run = .running → step s = .next t →
    (t.run = .halted .endOfStream ↔ s.ip = s.code.length) ∧
    (t.run = .halted .unsupportedOpcode ↔ s.ip ≠ s.code.length ∧ decode s.fetch = .error .unsupportedOpcode) ∧
    (t.run = .halted .truncatedStream ↔ s.ip ≠ s.code.length ∧ decode s.fetch = .error .truncatedStream) ∧
    (t.run = .halted .unimplementedDestination ↔ s.ip ≠ s.code.length ∧
      ∃ i rest a m, decode s.fetch = .ok (i, rest) ∧ i.op = .arith a ∧ i.dst = some (.mem m)) ∧
    (t.run = .halted .unimplementedCondition ↔ s.ip ≠ s.code.length ∧ s.config.branchEval = .extended ∧
      ∃ i rest b, decode s.fetch = .ok (i, rest) ∧ i.op = .branch b ∧
        b ∈ [.jo, .jno, .jb, .jnb, .jbe, .ja, .jp, .jnp, .jl, .jnl, .jle, .jg]) ∧
    (t.run = .halted .branchOutOfStream ↔ s.ip ≠ s.code.length ∧
      ∃ i rest b d, decode s.fetch = .ok (i, rest) ∧ i.op = .branch b ∧ i.disp8 = some d ∧ (s.cond b).1 = .taken ∧
        ((s.ip : Int) + 2 + d.toInt < 0 ∨ (s.code.length : Int) < (s.ip : Int) + 2 + d.toInt))

/-- R278: each step finishes. A running CORE always has a next state. -/
def Obligations.RunningCoreAlwaysSteps : Prop :=
  ∀ s : State, s.run = .running → ∃ t, step s = .next t

/-- R247, R205: `75 FE` with ZF = 0 is a hang. For every number of steps the CORE is still running, and only the trace has
grown. -/
def Obligations.JumpToItselfNeverStops : Prop :=
  ∀ (s : State) (rest : List Byte) (n : Nat), s.run = .running → s.zf = false →
    decode s.fetch = .ok (.jne 0xFE#8, rest) →
    ∃ t, Host.Core.run core n s = .next t ∧ t = { s with trace := t.trace } ∧ t.trace.length = s.trace.length + n

/-! ### The invariant, reset and launch (10_state.md R27 to R38, 70_reset_and_hazards.md) -/

/-- R27, R29, R50: every step keeps the launch legal, `0 <= ip <= L`, and data memory canonical and inside MEM. -/
def Obligations.StepKeepsInvariant : Prop :=
  ∀ s t : State, s.inv → step s = .next t → t.inv

/-- The reset state meets the invariant. -/
def Obligations.ResetMeetsInvariant : Prop := State.reset.inv

/-- R38: the value of every piece of state at the start of a launch, whatever its inputs. `LaunchHoldsItsInputs` says the
rest of a launch's state. -/
def Obligations.LaunchGivesResetValues : Prop :=
  ∀ (c : Config) (code : List Byte) (m : Memory) (s : State), State.launch c code m = .next s →
    (∀ r, s.reg r = 0x0000#16) ∧ s.zf = false ∧ s.sf = false ∧ s.ip = 0 ∧ s.run = .running ∧ s.mem = m

/-- When a launch is refused. R6 gives MEM_SIZE's range 1..65536; that a launch outside it is refused, by a name of its own,
is the model's choice (assumption log entry 15). R273(c) refuses a stream longer than `2^IP_BITS - 1` (R27). That MEM_INIT
must be a canonical memory of MEM_SIZE bytes is the model's representation (assumption log entry 4). -/
def Obligations.LaunchRefusesIllegalInputs : Prop :=
  ∀ (c : Config) (code : List Byte) (m : Memory),
    (¬ (1 ≤ c.memSize ∧ c.memSize ≤ 65536) → State.launch c code m = .refused .memSizeOutOfRange) ∧
    (1 ≤ c.memSize → c.memSize ≤ 65536 → 2 ^ c.ipBits - 1 < code.length →
      State.launch c code m = .refused .streamTooLong) ∧
    (1 ≤ c.memSize → c.memSize ≤ 65536 → code.length ≤ 2 ^ c.ipBits - 1 →
      (m.wf ∧ m.within c.memSize ↔ ∃ s, State.launch c code m = .next s))

/-- R27, R29, R50: every state a run passes through meets the invariant, from every launch. -/
def Obligations.EveryReachableStateMeetsInvariant : Prop :=
  ∀ (c : Config) (code : List Byte) (m : Memory) (s t : State),
    State.launch c code m = .next s → Reaches s t → t.inv

/-- R65, R37: no step changes CODE, and a store to MEM is never seen by instruction fetch. The parameters do not change
either (R6: fixed per launch). -/
def Obligations.ProgramNeverChanges : Prop :=
  (∀ s t : State, step s = .next t → t.code = s.code ∧ t.config = s.config) ∧
  (∀ (s : State) (w : Width) (m : MemOperand) (v : Word), (s.writeOp w (.mem m) v).fetch = s.fetch)

/-! ### Data memory (20_memory.md) -/

/-- R52: a word read takes the byte at `a mod MEM_SIZE` as its low byte and the byte at `((a + 1) mod 2^16) mod MEM_SIZE` as
its high byte. -/
def Obligations.WordReadIsLittleEndian : Prop :=
  ∀ (s : State) (a : Word),
    s.memRead1 a = s.mem.read (a.toNat % s.config.memSize) ∧
    (s.memRead2 a).toNat =
      (s.mem.read ((a.toNat + 1) % 65536 % s.config.memSize)).toNat * 256 +
        (s.mem.read (a.toNat % s.config.memSize)).toNat

/-- R53: what the two write primitives leave at every address. -/
def Obligations.StoreThenLoad : Prop :=
  ∀ (s : State) (a v : Word) (b : Byte), s.mem.wf →
    s.wroteMem (s.memWrite2 a v) 2 a v ∧
    (s.memWrite1 a b).memRead1 a = b ∧
    (∀ x, s.memIndex x ≠ s.memIndex a → (s.memWrite1 a b).memRead1 x = s.memRead1 x) ∧
    (s.memIndex a ≠ s.memIndex (a + 1#16) → (s.memWrite2 a v).memRead2 a = v)

/-- R55: after a word store at `a` a byte access at `a` sees the word's low byte and one at `a + 1` its high byte. -/
def Obligations.MixedWidthAccess : Prop :=
  ∀ (s : State) (a v : Word), s.mem.wf → s.memIndex a ≠ s.memIndex (a + 1#16) →
    ((s.memWrite2 a v).memRead1 a).toNat = v.toNat % 256 ∧ ((s.memWrite2 a v).memRead1 (a + 1#16)).toNat = v.toNat / 256

/-- R50, R53: exactly when the two bytes of a word share a location. R53 says "only when MEM_SIZE = 1"; its own pseudocode
also gives it at address 0xFFFF when MEM_SIZE divides 65535 (assumption log entry 9). -/
def Obligations.WordBytesShareALocation : Prop :=
  ∀ (s : State) (a : Word), s.config.legal →
    (s.memIndex a = s.memIndex (a + 1#16) ↔ s.config.memSize = 1 ∨ (a = 0xFFFF#16 ∧ s.config.memSize ∣ 65535))

/-- The canonical form is one: memories that read alike are the same data (assumption log entry 4). -/
def Obligations.CanonicalMemoryIsUnique : Prop :=
  ∀ m m' : Memory, m.wf → m'.wf → (∀ a, m.read a = m'.read a) → m = m'

/-- R134: a byte-width memory source is the byte at EA, zero-extended. Two states that agree on the registers and on that
byte read the same, whatever stands at EA + 1 and everywhere else. -/
def Obligations.ByteSourceIgnoresNextByte : Prop :=
  ∀ (s t : State) (m : MemOperand), t.regs = s.regs → t.memRead1 (s.ea m) = s.memRead1 (s.ea m) →
    t.readOp .byte (.mem m) = s.readOp .byte (.mem m) ∧
    (s.readOp .byte (.mem m)).toNat = (s.memRead1 (s.ea m)).toNat

/-! ### Addresses and registers -/

/-- R131: the effective address, one line per base expression. -/
def Obligations.EffectiveAddressSum : Prop :=
  ∀ (s : State) (d : Word),
    (s.ea ⟨.regs .bxSi, d⟩).toNat = ((s.reg .bx).toNat + (s.reg .si).toNat + d.toNat) % 65536 ∧
    (s.ea ⟨.regs .bxDi, d⟩).toNat = ((s.reg .bx).toNat + (s.reg .di).toNat + d.toNat) % 65536 ∧
    (s.ea ⟨.regs .bpSi, d⟩).toNat = ((s.reg .bp).toNat + (s.reg .si).toNat + d.toNat) % 65536 ∧
    (s.ea ⟨.regs .bpDi, d⟩).toNat = ((s.reg .bp).toNat + (s.reg .di).toNat + d.toNat) % 65536 ∧
    (s.ea ⟨.regs .si, d⟩).toNat = ((s.reg .si).toNat + d.toNat) % 65536 ∧
    (s.ea ⟨.regs .di, d⟩).toNat = ((s.reg .di).toNat + d.toNat) % 65536 ∧
    (s.ea ⟨.regs .bp, d⟩).toNat = ((s.reg .bp).toNat + d.toNat) % 65536 ∧
    (s.ea ⟨.regs .bx, d⟩).toNat = ((s.reg .bx).toNat + d.toNat) % 65536 ∧
    s.ea ⟨.direct, d⟩ = d

/-- R132: the three-input adder, its inputs selected by the mod and rm fields and the displacement bytes, gives the
effective address of every memory operand an encoding writes. -/
def Obligations.AdderGivesEffectiveAddress : Prop :=
  ∀ (s : State) (m : MemForm), m.wf = true → s.eaAdder m.modBits m.rmBits m.dispBytes = s.ea m.operand

/-- R23: the read port. A byte slice is zero-extended. -/
def Obligations.RegisterReadZeroExtends : Prop :=
  ∀ (s : State) (r : Reg),
    s.regs.read ⟨r, .word⟩ = s.reg r ∧
    (s.regs.read ⟨r, .lo⟩).toNat = (s.reg r).toNat % 256 ∧
    (s.regs.read ⟨r, .hi⟩).toNat = (s.reg r).toNat / 256

/-- R24, R25: the write port drives only the slice's byte lanes, and the slice then reads as the bits written. The worked
example: 0xFF into the low byte of 0x1234 gives 0x12FF, then 0xAB into the high byte gives 0xABFF. -/
def Obligations.RegisterWriteKeepsOtherLane : Prop :=
  ∀ (s : State) (r : Reg) (sl : Slice) (v : Word),
    s.wroteReg (s.writeReg ⟨r, sl⟩ v) ⟨r, sl⟩ v ∧
    (s.writeReg ⟨r, sl⟩ v).regs.read ⟨r, sl⟩ = (if sl = .word then v else zext16 (lowByte v)) ∧
    (s.reg r = 0x1234#16 →
      (s.writeReg ⟨r, .lo⟩ 0x00FF#16).reg r = 0x12FF#16 ∧
      ((s.writeReg ⟨r, .lo⟩ 0x00FF#16).writeReg ⟨r, .hi⟩ 0x00AB#16).reg r = 0xABFF#16)

/-- R153: a step writes at most one register. -/
def Obligations.OneRegisterPerStep : Prop :=
  ∀ (s t : State) (q q' : Reg), step s = .next t → t.reg q ≠ s.reg q → t.reg q' ≠ s.reg q' → q = q'

/-! ### mov (41_mov.md) -/

/-- R160, R161, R163: mov to a register (movRmReg, movImmRm, movImmReg) completes in every state: the destination holds the
source, every other register and byte lane, the flags, memory and RUN are as before, and `ip` is past the instruction. -/
def Obligations.MovToRegister : Prop :=
  (∀ (d : Dir) (w : Width) (reg : RegOp) (rm : RmOperand) (r : RegOp) (s : State), rmDst d reg rm = .reg r →
    ∃ t, exec (.movRmReg d w reg rm) s = .next t ∧ s.wroteReg t r (s.readOp w (rmSrc d reg rm)) ∧
      s.sameFlags t ∧ s.sameMem t ∧ s.sameControl t ∧ t.ip = s.ip + (2 + rm.dispLen)) ∧
  (∀ (w : Width) (r : RegOp) (v : Word) (s : State),
    ∃ t, exec (.movImmRm w (.reg r) v) s = .next t ∧ s.wroteReg t r v ∧
      s.sameFlags t ∧ s.sameMem t ∧ s.sameControl t ∧ t.ip = s.ip + (2 + immLen false w)) ∧
  (∀ (w : Width) (r : RegOp) (v : Word) (s : State),
    ∃ t, exec (.movImmReg w r v) s = .next t ∧ s.wroteReg t r v ∧
      s.sameFlags t ∧ s.sameMem t ∧ s.sameControl t ∧ t.ip = s.ip + (1 + immLen false w))

/-- R160, R161, R135: mov to memory (movRmReg with d = 0, movImmRm) completes: the source's bytes are stored at the
operand's effective address, every other byte reads as before, and no register and no flag changes. -/
def Obligations.MovToMemory : Prop :=
  (∀ (w : Width) (reg : RegOp) (m : MemForm) (s : State), s.mem.wf →
    ∃ t, exec (.movRmReg .toRm w reg (.mem m)) s = .next t ∧
      s.wroteMem t (storeBytes s.config w) (s.ea m.operand) (s.regs.read reg) ∧ s.sameRegs t ∧
      s.sameFlags t ∧ s.sameControl t ∧ t.ip = s.ip + (2 + (RmOperand.mem m).dispLen)) ∧
  (∀ (w : Width) (m : MemForm) (v : Word) (s : State), s.mem.wf →
    ∃ t, exec (.movImmRm w (.mem m) v) s = .next t ∧
      s.wroteMem t (storeBytes s.config w) (s.ea m.operand) v ∧ s.sameRegs t ∧
      s.sameFlags t ∧ s.sameControl t ∧ t.ip = s.ip + (2 + (RmOperand.mem m).dispLen + immLen false w))

/-- R162: a byte-width store. Under `word` it writes the byte and 0x00 after it; under `byte` it writes the byte and leaves
the next one. It says so of both instructions that store a byte. -/
def Obligations.ByteStoreWritesOneOrTwoBytes : Prop :=
  ∀ (m : MemForm) (reg : RegOp) (v : Word) (s : State), s.mem.wf → reg.wf .byte = true → immFits false .byte v = true →
    s.memIndex (s.ea m.operand) ≠ s.memIndex (s.ea m.operand + 1#16) →
    ∃ t u, exec (.movRmReg .toRm .byte reg (.mem m)) s = .next t ∧ exec (.movImmRm .byte (.mem m) v) s = .next u ∧
      t.memRead1 (s.ea m.operand) = lowByte (s.regs.read reg) ∧ u.memRead1 (s.ea m.operand) = lowByte v ∧
      (s.config.byteStore = .word →
        t.memRead1 (s.ea m.operand + 1#16) = 0x00#8 ∧ u.memRead1 (s.ea m.operand + 1#16) = 0x00#8) ∧
      (s.config.byteStore = .byte →
        t.memRead1 (s.ea m.operand + 1#16) = s.memRead1 (s.ea m.operand + 1#16) ∧
        u.memRead1 (s.ea m.operand + 1#16) = s.memRead1 (s.ea m.operand + 1#16))

/-! ### add, sub, cmp (42_arith.md) and the ALU -/

/-- R138: the ALU at word width: wrapping sum and difference, zero bit and bit 15. -/
def Obligations.AluWordResult : Prop :=
  ∀ (c : Config) (a b : Word),
    (alu c .add .word a b).r.toNat = (a.toNat + b.toNat) % 65536 ∧
    (alu c .sub .word a b).r.toNat = (a.toNat + 65536 - b.toNat) % 65536 ∧
    (alu c .pass .word a b).r = b ∧
    ∀ fn, ((alu c fn .word a b).z = true ↔ (alu c fn .word a b).r.toNat = 0) ∧
      ((alu c fn .word a b).s = true ↔ 32768 ≤ (alu c fn .word a b).r.toNat)

/-- R139: the ALU at byte width under `native8`: computed at 8 bits, zero-extended, sign from bit 7. -/
def Obligations.AluByteResultNative : Prop :=
  ∀ (c : Config) (a b : Word), c.byteArith = .native8 →
    (alu c .add .byte a b).r.toNat = (a.toNat % 256 + b.toNat % 256) % 256 ∧
    (alu c .sub .byte a b).r.toNat = (a.toNat % 256 + 256 - b.toNat % 256) % 256 ∧
    (alu c .pass .byte a b).r.toNat = b.toNat % 256 ∧
    ∀ fn, ((alu c fn .byte a b).z = true ↔ (alu c fn .byte a b).r.toNat = 0) ∧
      ((alu c fn .byte a b).s = true ↔ 128 ≤ (alu c fn .byte a b).r.toNat)

/-- R140: the ALU at byte width under `wide16`: both bytes zero-extended, computed at 16 bits, flags from the 16-bit result.
An add sets z only when both bytes are 0 and never sets s; a sub sets s exactly when the first byte is below the second. A
byte destination receives the result's low byte. -/
def Obligations.AluByteResultWide : Prop :=
  ∀ (c : Config) (a b : Word), c.byteArith = .wide16 →
    (alu c .add .byte a b).r.toNat = a.toNat % 256 + b.toNat % 256 ∧
    (alu c .sub .byte a b).r.toNat = (a.toNat % 256 + 65536 - b.toNat % 256) % 65536 ∧
    (alu c .pass .byte a b).r.toNat = b.toNat % 256 ∧
    (∀ fn, ((alu c fn .byte a b).z = true ↔ (alu c fn .byte a b).r.toNat = 0) ∧
      ((alu c fn .byte a b).s = true ↔ 32768 ≤ (alu c fn .byte a b).r.toNat)) ∧
    ((alu c .add .byte a b).z = true ↔ a.toNat % 256 = 0 ∧ b.toNat % 256 = 0) ∧ (alu c .add .byte a b).s = false ∧
    ((alu c .sub .byte a b).s = true ↔ a.toNat % 256 < b.toNat % 256) ∧
    ∀ (fn : AluFn) (r : RegOp) (s : State), r.slice ≠ .word →
      ((s.writeReg r (alu c fn .byte a b).r).regs.read r).toNat = (alu c fn .byte a b).r.toNat % 256

/-- Decision D5: the two BYTE_ARITH settings give the same byte, so they differ only in the flags. -/
def Obligations.ByteArithSettingsAgreeOnByte : Prop :=
  ∀ (c c' : Config) (fn : AluFn) (a b : Word), lowByte (alu c fn .byte a b).r = lowByte (alu c' fn .byte a b).r

/-- R180, R183, R186: add with a register destination (addRmReg, addImmRm, addImmAcc) completes in every state: the
destination holds the ALU's sum, ZF and SF are the ALU's, and nothing else changes but `ip`. -/
def Obligations.AddToRegister : Prop :=
  (∀ (d : Dir) (w : Width) (reg : RegOp) (rm : RmOperand) (r : RegOp) (s : State), rmDst d reg rm = .reg r →
    ∃ t, exec (.addRmReg d w reg rm) s = .next t ∧
      s.wroteReg t r (alu s.config .add w (s.regs.read r) (s.readOp w (rmSrc d reg rm))).r ∧
      t.zf = (alu s.config .add w (s.regs.read r) (s.readOp w (rmSrc d reg rm))).z ∧
      t.sf = (alu s.config .add w (s.regs.read r) (s.readOp w (rmSrc d reg rm))).s ∧
      s.sameMem t ∧ s.sameControl t ∧ t.ip = s.ip + (2 + rm.dispLen)) ∧
  (∀ (sx : Bool) (w : Width) (r : RegOp) (v : Word) (s : State),
    ∃ t, exec (.addImmRm sx w (.reg r) v) s = .next t ∧ s.wroteReg t r (alu s.config .add w (s.regs.read r) v).r ∧
      t.zf = (alu s.config .add w (s.regs.read r) v).z ∧ t.sf = (alu s.config .add w (s.regs.read r) v).s ∧
      s.sameMem t ∧ s.sameControl t ∧ t.ip = s.ip + (2 + immLen sx w)) ∧
  (∀ (w : Width) (v : Word) (s : State),
    ∃ t, exec (.addImmAcc w v) s = .next t ∧
      s.wroteReg t (accReg w) (alu s.config .add w (s.regs.read (accReg w)) v).r ∧
      t.zf = (alu s.config .add w (s.regs.read (accReg w)) v).z ∧
      t.sf = (alu s.config .add w (s.regs.read (accReg w)) v).s ∧
      s.sameMem t ∧ s.sameControl t ∧ t.ip = s.ip + (1 + immLen false w))

/-- R181, R184, R187: sub with a register destination (subRmReg, subImmRm, subImmAcc), as `AddToRegister` with the
difference. -/
def Obligations.SubToRegister : Prop :=
  (∀ (d : Dir) (w : Width) (reg : RegOp) (rm : RmOperand) (r : RegOp) (s : State), rmDst d reg rm = .reg r →
    ∃ t, exec (.subRmReg d w reg rm) s = .next t ∧
      s.wroteReg t r (alu s.config .sub w (s.regs.read r) (s.readOp w (rmSrc d reg rm))).r ∧
      t.zf = (alu s.config .sub w (s.regs.read r) (s.readOp w (rmSrc d reg rm))).z ∧
      t.sf = (alu s.config .sub w (s.regs.read r) (s.readOp w (rmSrc d reg rm))).s ∧
      s.sameMem t ∧ s.sameControl t ∧ t.ip = s.ip + (2 + rm.dispLen)) ∧
  (∀ (sx : Bool) (w : Width) (r : RegOp) (v : Word) (s : State),
    ∃ t, exec (.subImmRm sx w (.reg r) v) s = .next t ∧ s.wroteReg t r (alu s.config .sub w (s.regs.read r) v).r ∧
      t.zf = (alu s.config .sub w (s.regs.read r) v).z ∧ t.sf = (alu s.config .sub w (s.regs.read r) v).s ∧
      s.sameMem t ∧ s.sameControl t ∧ t.ip = s.ip + (2 + immLen sx w)) ∧
  (∀ (w : Width) (v : Word) (s : State),
    ∃ t, exec (.subImmAcc w v) s = .next t ∧
      s.wroteReg t (accReg w) (alu s.config .sub w (s.regs.read (accReg w)) v).r ∧
      t.zf = (alu s.config .sub w (s.regs.read (accReg w)) v).z ∧
      t.sf = (alu s.config .sub w (s.regs.read (accReg w)) v).s ∧
      s.sameMem t ∧ s.sameControl t ∧ t.ip = s.ip + (1 + immLen false w))

/-- R182, R185, R188, R190: cmp with a register destination (cmpRmReg, cmpImmRm, cmpImmAcc) completes in every state: no
register changes, and ZF and SF are those of the difference. -/
def Obligations.CmpWritesFlagsOnly : Prop :=
  (∀ (d : Dir) (w : Width) (reg : RegOp) (rm : RmOperand) (r : RegOp) (s : State), rmDst d reg rm = .reg r →
    ∃ t, exec (.cmpRmReg d w reg rm) s = .next t ∧ s.sameRegs t ∧
      t.zf = (alu s.config .sub w (s.regs.read r) (s.readOp w (rmSrc d reg rm))).z ∧
      t.sf = (alu s.config .sub w (s.regs.read r) (s.readOp w (rmSrc d reg rm))).s ∧
      s.sameMem t ∧ s.sameControl t ∧ t.ip = s.ip + (2 + rm.dispLen)) ∧
  (∀ (sx : Bool) (w : Width) (r : RegOp) (v : Word) (s : State),
    ∃ t, exec (.cmpImmRm sx w (.reg r) v) s = .next t ∧ s.sameRegs t ∧
      t.zf = (alu s.config .sub w (s.regs.read r) v).z ∧ t.sf = (alu s.config .sub w (s.regs.read r) v).s ∧
      s.sameMem t ∧ s.sameControl t ∧ t.ip = s.ip + (2 + immLen sx w)) ∧
  (∀ (w : Width) (v : Word) (s : State),
    ∃ t, exec (.cmpImmAcc w v) s = .next t ∧ s.sameRegs t ∧
      t.zf = (alu s.config .sub w (s.regs.read (accReg w)) v).z ∧
      t.sf = (alu s.config .sub w (s.regs.read (accReg w)) v).s ∧
      s.sameMem t ∧ s.sameControl t ∧ t.ip = s.ip + (1 + immLen false w))

/-- R190: cmp leaves the register file alone, and its flags are those sub gives with the same operands, in every form and
every state, the memory-destination forms included (both then stop alike). -/
def Obligations.CmpFlagsAreSubFlags : Prop :=
  ∀ (i j : Instr), (∃ d w reg rm, i = .cmpRmReg d w reg rm ∧ j = .subRmReg d w reg rm) ∨
      (∃ sx w rm v, i = .cmpImmRm sx w rm v ∧ j = .subImmRm sx w rm v) ∨
      (∃ w v, i = .cmpImmAcc w v ∧ j = .subImmAcc w v) →
    ∀ s : State, ∃ t u, exec i s = .next t ∧ exec j s = .next u ∧ t.regs = s.regs ∧ t.zf = u.zf ∧ t.sf = u.sf ∧
      t.ip = u.ip ∧ t.run = u.run ∧ t.mem = u.mem

/-- R243: add, sub and cmp with a memory destination decode normally, and at execute stop with UnimplementedDestination; only
RUN changes. -/
def Obligations.ArithmeticMemoryDestinationHalts : Prop :=
  (∀ (w : Width) (reg : RegOp) (m : MemForm) (s : State),
    ∀ i ∈ [Instr.addRmReg .toRm w reg (.mem m), .subRmReg .toRm w reg (.mem m), .cmpRmReg .toRm w reg (.mem m)],
      exec i s = .next { s with run := .halted .unimplementedDestination } ∧
        (i.wf = true → ∀ rest, decode (encode i ++ rest) = .ok (i, rest))) ∧
  (∀ (sx : Bool) (w : Width) (m : MemForm) (v : Word) (s : State),
    ∀ i ∈ [Instr.addImmRm sx w (.mem m) v, .subImmRm sx w (.mem m) v, .cmpImmRm sx w (.mem m) v],
      exec i s = .next { s with run := .halted .unimplementedDestination } ∧
        (i.wf = true → ∀ rest, decode (encode i ++ rest) = .ok (i, rest)))

/-- R191: with one register as source and destination, sub leaves 0 with ZF = 1 and SF = 0, cmp sets the same flags, and add
doubles the register mod 2^N, at both widths and under every setting of BYTE_ARITH. -/
def Obligations.SameRegisterArithmetic : Prop :=
  ∀ (d : Dir) (w : Width) (r : RegOp) (s : State), r.wf w = true →
    ∃ t u v, exec (.subRmReg d w r (.reg r)) s = .next t ∧ exec (.cmpRmReg d w r (.reg r)) s = .next u ∧
      exec (.addRmReg d w r (.reg r)) s = .next v ∧
      t.regs.read r = 0#16 ∧ t.zf = true ∧ t.sf = false ∧ u.zf = true ∧ u.sf = false ∧
      (v.regs.read r).toNat = 2 * (s.regs.read r).toNat % (match w with | .byte => 256 | .word => 65536)

/-- R142: a step that executes add, sub or cmp writes both flags from the ALU; every other step (mov, jumps, loops, a fault,
the end of the stream) writes neither. -/
def Obligations.FlagsWrittenOnlyByArithmetic : Prop :=
  ∀ s t : State, s.run = .running → step s = .next t →
    (∀ i rest a, decode s.fetch = .ok (i, rest) → i.op = .arith a → t.run = .running →
      ∃ w r o fn, i.width = some w ∧ i.dst = some (.reg r) ∧ i.src = some o ∧
        fn = (if a = .add then AluFn.add else AluFn.sub) ∧
        t.zf = (alu s.config fn w (s.regs.read r) (s.readOp w o)).z ∧
        t.sf = (alu s.config fn w (s.regs.read r) (s.readOp w o)).s) ∧
    ((∀ i rest a, decode s.fetch = .ok (i, rest) → i.op = .arith a → t.run ≠ .running) → s.sameFlags t)

/-- R51, R64: only a mov with a memory destination changes data memory. -/
def Obligations.MemoryWrittenOnlyByMov : Prop :=
  ∀ s t : State, s.run = .running → step s = .next t → t.mem ≠ s.mem →
    ∃ i rest m, decode s.fetch = .ok (i, rest) ∧ i.op = .mov ∧ i.dst = some (.mem m) ∧ t.run = .running

/-! ### Jumps and loops (43_branch.md) -/

/-- R205: jne under both settings. Not taken it falls through; taken it goes to `ip + 2 + sint(disp8)` when that lies in
0..L; and nothing but `ip` changes. -/
def Obligations.JneBranches : Prop :=
  ∀ (d : Byte) (s : State),
    (s.zf = true → exec (.jne d) s = .next { s with ip := s.ip + 2 }) ∧
    (∀ n : Nat, s.zf = false → (n : Int) = (s.ip : Int) + 2 + d.toInt → n ≤ s.code.length →
      exec (.jne d) s = .next { s with ip := n })

/-- R221, R200 to R219: under `reference` every jump but jne and every loop form falls through, whatever the flags, CX and
the displacement are. -/
def Obligations.ReferenceBranchesFallThrough : Prop :=
  ∀ (d : Byte) (s : State), s.config.branchEval = .reference →
    ∀ i ∈ [Instr.jo d, .jno d, .jb d, .jnb d, .je d, .jbe d, .ja d, .js d, .jns d, .jp d, .jnp d, .jl d, .jnl d, .jle d,
        .jg d, .loopnz d, .loopz d, .loop d, .jcxz d],
      exec i s = .next { s with ip := s.ip + 2 }

/-- R204, R208, R209, R219: under `extended` je, js, jns and jcxz branch exactly on ZF = 1, SF = 1, SF = 0 and CX = 0, when the
target lies in 0..L, and fall through otherwise. -/
def Obligations.ExtendedConditionalJumps : Prop :=
  ∀ (d : Byte) (s : State) (c : Bool) (i : Instr), s.config.branchEval = .extended →
    (i = .je d ∧ c = s.zf) ∨ (i = .js d ∧ c = s.sf) ∨ (i = .jns d ∧ c = !s.sf) ∨
      (i = .jcxz d ∧ c = decide (s.reg .cx = 0x0000#16)) →
    (c = false → exec i s = .next { s with ip := s.ip + 2 }) ∧
    (∀ n : Nat, c = true → (n : Int) = (s.ip : Int) + 2 + d.toInt → n ≤ s.code.length →
      exec i s = .next { s with ip := n })

/-- R223, R216 to R218: under `extended` loop, loopz and loopnz write CX - 1 (mod 2^16) to CX whether or not they branch, and
branch when the new CX is not 0 (and ZF is 1, or 0). No other register, no flag and no memory byte changes. A branch out of
the stream writes nothing, not even CX. jcxz writes no CX, and under `reference` no loop form does. -/
def Obligations.LoopFormsCountDown : Prop :=
  (∀ (d : Byte) (s : State) (c : Bool) (i : Instr), s.config.branchEval = .extended →
    (i = .loop d ∧ c = decide (s.reg .cx - 1#16 ≠ 0#16)) ∨ (i = .loopz d ∧ c = (decide (s.reg .cx - 1#16 ≠ 0#16) && s.zf)) ∨
      (i = .loopnz d ∧ c = (decide (s.reg .cx - 1#16 ≠ 0#16) && !s.zf)) →
    (∀ n : Nat, (c = false ∧ n = s.ip + 2) ∨ (c = true ∧ (n : Int) = (s.ip : Int) + 2 + d.toInt ∧ n ≤ s.code.length) →
      ∃ t, exec i s = .next t ∧ (t.reg .cx).toNat = ((s.reg .cx).toNat + 65535) % 65536 ∧
        (∀ q, q ≠ .cx → t.reg q = s.reg q) ∧ s.sameFlags t ∧ s.sameMem t ∧ s.sameControl t ∧ t.ip = n) ∧
    (c = true → ((s.ip : Int) + 2 + d.toInt < 0 ∨ (s.code.length : Int) < (s.ip : Int) + 2 + d.toInt) →
      exec i s = .next { s with run := .halted .branchOutOfStream })) ∧
  (∀ (d : Byte) (s t : State) (i : Instr),
    i = .jcxz d ∨ (s.config.branchEval = .reference ∧ (i = .loop d ∨ i = .loopz d ∨ i = .loopnz d)) →
    exec i s = .next t → s.sameRegs t ∧ s.sameFlags t ∧ s.sameMem t)

/-- R222, R248: under `extended` the twelve jumps that need CF, OF or PF stop with UnimplementedCondition and write nothing
else. Under `reference` no instruction does. -/
def Obligations.UnevaluableJumpsHalt : Prop :=
  (∀ (d : Byte) (s : State), s.config.branchEval = .extended →
    ∀ i ∈ [Instr.jo d, .jno d, .jb d, .jnb d, .jbe d, .ja d, .jp d, .jnp d, .jl d, .jnl d, .jle d, .jg d],
      exec i s = .next { s with run := .halted .unimplementedCondition }) ∧
  (∀ (s t : State) (i : Instr), s.config.branchEval = .reference → s.run = .running → exec i s = .next t →
    t.run ≠ .halted .unimplementedCondition)

/-- R245: a taken jump or loop whose target lies outside 0..L stops with BranchOutOfStream, and no register is written, not
even CX. -/
def Obligations.BranchOutOfStreamHalts : Prop :=
  ∀ (i : Instr) (b : BranchOp) (d : Byte) (s : State), i.op = .branch b → i.disp8 = some d → (s.cond b).1 = .taken →
    ((s.ip : Int) + 2 + d.toInt < 0 ∨ (s.code.length : Int) < (s.ip : Int) + 2 + d.toInt) →
    exec i s = .next { s with run := .halted .branchOutOfStream }

/-- R224: the branch laws. No branch writes a flag or memory; a branch not taken gives `ip + 2`; a taken one gives
`ip + 2 + sint(disp8)`, in `ip - 126 .. ip + 129`, and stops if that is outside 0..L; under `reference` only jne with ZF = 0 can
give `ip` anything but `ip + len`. -/
def Obligations.BranchLaws : Prop :=
  (∀ (i : Instr) (b : BranchOp) (d : Byte) (s : State), i.op = .branch b → i.disp8 = some d →
    ∃ t, exec i s = .next t ∧ s.sameFlags t ∧ s.sameMem t ∧
      ((s.cond b).1 = .notTaken → t.run = s.run ∧ t.ip = s.ip + 2) ∧
      ((s.cond b).1 = .taken →
        (s.ip : Int) - 126 ≤ s.ip + 2 + d.toInt ∧ (s.ip : Int) + 2 + d.toInt ≤ s.ip + 129 ∧
        if 0 ≤ (s.ip : Int) + 2 + d.toInt ∧ (s.ip : Int) + 2 + d.toInt ≤ s.code.length
        then t.run = s.run ∧ (t.ip : Int) = s.ip + 2 + d.toInt
        else t.run = .halted .branchOutOfStream ∧ t.ip = s.ip)) ∧
  (∀ (s t : State) (i : Instr), s.config.branchEval = .reference → s.run = .running → exec i s = .next t →
    t.run = .running → t.ip ≠ s.ip + i.len → ∃ d, i = .jne d ∧ s.zf = false)

/-! ### The trace port and the opcode table's words -/

/-- R254: a step that executes an instruction without a fault gives one record: its text is the instruction's listing line,
and it holds both values of `ip`, the registers that changed in the source's order A, B, C, D, SP, BP, SI, DI with old and
new values, and the flag sets exactly if a flag changed. A fault step or an end-of-stream step gives none. That the records
are kept in State, and that a record holds the instruction its text is a function of (`rec.instr = i`), is the model's choice
(assumption log entry 3). -/
def Obligations.TraceRecordsEachStep : Prop :=
  ∀ s t : State, s.run = .running → step s = .next t →
    (t.run ≠ .running → t.trace = s.trace) ∧
    (t.run = .running → ∃ i rest rec, decode s.fetch = .ok (i, rest) ∧ t.trace = s.trace ++ [rec] ∧ rec.instr = i ∧
      rec.text = listingText i ∧ rec.ipOld = s.ip ∧ rec.ipNew = t.ip ∧
      (rec.regs.map RegChange.reg).Sublist [.ax, .bx, .cx, .dx, .sp, .bp, .si, .di] ∧
      (∀ c, c ∈ rec.regs ↔ c.old = s.reg c.reg ∧ c.new = t.reg c.reg ∧ c.old ≠ c.new) ∧
      (rec.flags = if t.zf = s.zf ∧ t.sf = s.sf then none else some (⟨s.zf, s.sf⟩, ⟨t.zf, t.sf⟩)))

/-- The model's own loading of a table word (assumption log entries 5 and 6): the next step fetches and decodes exactly the
instruction the decoder reads from the word. -/
def Obligations.TableWordIsFetched : Prop :=
  ∀ (s : State) (nbits w : Nat) (i : Instr), nbits ≤ 48 → decodeTableWord nbits w = some i →
    (s.withFetchWord nbits w).run = .running ∧
    ∃ rest, decode (s.withFetchWord nbits w).fetch = .ok (i, rest)

/-! ### The launch's inputs, and State.reset -/

/-- The model's own choices about a launch. The program and the parameters stand in State as constants (assumption log entry
2), the trace stands there and starts empty (entry 3), and the launch meets the invariant. State.reset is the launch with
R6's defaults (entry 8), no program (entry 5), and the memory that lists nothing and reads 0x00 (entry 4). -/
def Obligations.LaunchHoldsItsInputs : Prop :=
  (∀ (c : Config) (code : List Byte) (m : Memory) (s : State), State.launch c code m = .next s →
    s.code = code ∧ s.config = c ∧ s.trace = [] ∧ s.inv) ∧
  State.launch Config.default [] [] = .next State.reset
end

