-- ==== Sys2Proof/Laws/State.lean ====
section
/-! SUPPORT. One lemma per field per update of `State`, so that no later proof unfolds a record update. -/

namespace Sys2Proof.Machine

variable (s : State)

/-! ### setReg -/

@[simp] theorem State.setReg_regs (r : Reg) (v : Word) : (s.setReg r v).regs = s.regs.set r v := rfl
@[simp] theorem State.setReg_zf (r : Reg) (v : Word) : (s.setReg r v).zf = s.zf := rfl
@[simp] theorem State.setReg_sf (r : Reg) (v : Word) : (s.setReg r v).sf = s.sf := rfl
@[simp] theorem State.setReg_ip (r : Reg) (v : Word) : (s.setReg r v).ip = s.ip := rfl
@[simp] theorem State.setReg_run (r : Reg) (v : Word) : (s.setReg r v).run = s.run := rfl
@[simp] theorem State.setReg_mem (r : Reg) (v : Word) : (s.setReg r v).mem = s.mem := rfl
@[simp] theorem State.setReg_code (r : Reg) (v : Word) : (s.setReg r v).code = s.code := rfl
@[simp] theorem State.setReg_config (r : Reg) (v : Word) : (s.setReg r v).config = s.config := rfl
@[simp] theorem State.setReg_trace (r : Reg) (v : Word) : (s.setReg r v).trace = s.trace := rfl

/-! ### writeReg -/

@[simp] theorem State.writeReg_regs (r : RegOp) (v : Word) : (s.writeReg r v).regs = s.regs.write r v := rfl
@[simp] theorem State.writeReg_zf (r : RegOp) (v : Word) : (s.writeReg r v).zf = s.zf := rfl
@[simp] theorem State.writeReg_sf (r : RegOp) (v : Word) : (s.writeReg r v).sf = s.sf := rfl
@[simp] theorem State.writeReg_ip (r : RegOp) (v : Word) : (s.writeReg r v).ip = s.ip := rfl
@[simp] theorem State.writeReg_run (r : RegOp) (v : Word) : (s.writeReg r v).run = s.run := rfl
@[simp] theorem State.writeReg_mem (r : RegOp) (v : Word) : (s.writeReg r v).mem = s.mem := rfl
@[simp] theorem State.writeReg_code (r : RegOp) (v : Word) : (s.writeReg r v).code = s.code := rfl
@[simp] theorem State.writeReg_config (r : RegOp) (v : Word) : (s.writeReg r v).config = s.config := rfl
@[simp] theorem State.writeReg_trace (r : RegOp) (v : Word) : (s.writeReg r v).trace = s.trace := rfl

/-! ### memWrite1 -/

@[simp] theorem State.memWrite1_regs (a : Word) (v : Byte) : (s.memWrite1 a v).regs = s.regs := rfl
@[simp] theorem State.memWrite1_zf (a : Word) (v : Byte) : (s.memWrite1 a v).zf = s.zf := rfl
@[simp] theorem State.memWrite1_sf (a : Word) (v : Byte) : (s.memWrite1 a v).sf = s.sf := rfl
@[simp] theorem State.memWrite1_ip (a : Word) (v : Byte) : (s.memWrite1 a v).ip = s.ip := rfl
@[simp] theorem State.memWrite1_run (a : Word) (v : Byte) : (s.memWrite1 a v).run = s.run := rfl
@[simp] theorem State.memWrite1_mem (a : Word) (v : Byte) : (s.memWrite1 a v).mem = s.mem.write (s.memIndex a) v := rfl
@[simp] theorem State.memWrite1_code (a : Word) (v : Byte) : (s.memWrite1 a v).code = s.code := rfl
@[simp] theorem State.memWrite1_config (a : Word) (v : Byte) : (s.memWrite1 a v).config = s.config := rfl
@[simp] theorem State.memWrite1_trace (a : Word) (v : Byte) : (s.memWrite1 a v).trace = s.trace := rfl

/-! ### memWrite2 -/

@[simp] theorem State.memWrite2_regs (a v : Word) : (s.memWrite2 a v).regs = s.regs := rfl
@[simp] theorem State.memWrite2_zf (a v : Word) : (s.memWrite2 a v).zf = s.zf := rfl
@[simp] theorem State.memWrite2_sf (a v : Word) : (s.memWrite2 a v).sf = s.sf := rfl
@[simp] theorem State.memWrite2_ip (a v : Word) : (s.memWrite2 a v).ip = s.ip := rfl
@[simp] theorem State.memWrite2_run (a v : Word) : (s.memWrite2 a v).run = s.run := rfl
@[simp] theorem State.memWrite2_mem (a v : Word) : (s.memWrite2 a v).mem = (s.mem.write (s.memIndex a) (lowByte v)).write (s.memIndex (a + 1#16)) (highByte v) := rfl
@[simp] theorem State.memWrite2_code (a v : Word) : (s.memWrite2 a v).code = s.code := rfl
@[simp] theorem State.memWrite2_config (a v : Word) : (s.memWrite2 a v).config = s.config := rfl
@[simp] theorem State.memWrite2_trace (a v : Word) : (s.memWrite2 a v).trace = s.trace := rfl

/-! ### setIp -/

@[simp] theorem State.setIp_regs (t : Nat) : (s.setIp t).regs = s.regs := rfl
@[simp] theorem State.setIp_zf (t : Nat) : (s.setIp t).zf = s.zf := rfl
@[simp] theorem State.setIp_sf (t : Nat) : (s.setIp t).sf = s.sf := rfl
@[simp] theorem State.setIp_ip (t : Nat) : (s.setIp t).ip = t := rfl
@[simp] theorem State.setIp_run (t : Nat) : (s.setIp t).run = s.run := rfl
@[simp] theorem State.setIp_mem (t : Nat) : (s.setIp t).mem = s.mem := rfl
@[simp] theorem State.setIp_code (t : Nat) : (s.setIp t).code = s.code := rfl
@[simp] theorem State.setIp_config (t : Nat) : (s.setIp t).config = s.config := rfl
@[simp] theorem State.setIp_trace (t : Nat) : (s.setIp t).trace = s.trace := rfl

/-! ### setFlags -/

@[simp] theorem State.setFlags_regs (z n : Bool) : (s.setFlags z n).regs = s.regs := rfl
@[simp] theorem State.setFlags_zf (z n : Bool) : (s.setFlags z n).zf = z := rfl
@[simp] theorem State.setFlags_sf (z n : Bool) : (s.setFlags z n).sf = n := rfl
@[simp] theorem State.setFlags_ip (z n : Bool) : (s.setFlags z n).ip = s.ip := rfl
@[simp] theorem State.setFlags_run (z n : Bool) : (s.setFlags z n).run = s.run := rfl
@[simp] theorem State.setFlags_mem (z n : Bool) : (s.setFlags z n).mem = s.mem := rfl
@[simp] theorem State.setFlags_code (z n : Bool) : (s.setFlags z n).code = s.code := rfl
@[simp] theorem State.setFlags_config (z n : Bool) : (s.setFlags z n).config = s.config := rfl
@[simp] theorem State.setFlags_trace (z n : Bool) : (s.setFlags z n).trace = s.trace := rfl

/-! ### updateFlags -/

@[simp] theorem State.updateFlags_regs (o : AluOut) : (s.updateFlags o).regs = s.regs := rfl
@[simp] theorem State.updateFlags_zf (o : AluOut) : (s.updateFlags o).zf = o.z := rfl
@[simp] theorem State.updateFlags_sf (o : AluOut) : (s.updateFlags o).sf = o.s := rfl
@[simp] theorem State.updateFlags_ip (o : AluOut) : (s.updateFlags o).ip = s.ip := rfl
@[simp] theorem State.updateFlags_run (o : AluOut) : (s.updateFlags o).run = s.run := rfl
@[simp] theorem State.updateFlags_mem (o : AluOut) : (s.updateFlags o).mem = s.mem := rfl
@[simp] theorem State.updateFlags_code (o : AluOut) : (s.updateFlags o).code = s.code := rfl
@[simp] theorem State.updateFlags_config (o : AluOut) : (s.updateFlags o).config = s.config := rfl
@[simp] theorem State.updateFlags_trace (o : AluOut) : (s.updateFlags o).trace = s.trace := rfl

/-! ### halt -/

@[simp] theorem State.halt_regs (r : HaltReason) : (s.halt r).regs = s.regs := rfl
@[simp] theorem State.halt_zf (r : HaltReason) : (s.halt r).zf = s.zf := rfl
@[simp] theorem State.halt_sf (r : HaltReason) : (s.halt r).sf = s.sf := rfl
@[simp] theorem State.halt_ip (r : HaltReason) : (s.halt r).ip = s.ip := rfl
@[simp] theorem State.halt_run (r : HaltReason) : (s.halt r).run = .halted r := rfl
@[simp] theorem State.halt_mem (r : HaltReason) : (s.halt r).mem = s.mem := rfl
@[simp] theorem State.halt_code (r : HaltReason) : (s.halt r).code = s.code := rfl
@[simp] theorem State.halt_config (r : HaltReason) : (s.halt r).config = s.config := rfl
@[simp] theorem State.halt_trace (r : HaltReason) : (s.halt r).trace = s.trace := rfl

/-! ### emit -/

@[simp] theorem State.emit_regs (t : TraceRecord) : (s.emit t).regs = s.regs := rfl
@[simp] theorem State.emit_zf (t : TraceRecord) : (s.emit t).zf = s.zf := rfl
@[simp] theorem State.emit_sf (t : TraceRecord) : (s.emit t).sf = s.sf := rfl
@[simp] theorem State.emit_ip (t : TraceRecord) : (s.emit t).ip = s.ip := rfl
@[simp] theorem State.emit_run (t : TraceRecord) : (s.emit t).run = s.run := rfl
@[simp] theorem State.emit_mem (t : TraceRecord) : (s.emit t).mem = s.mem := rfl
@[simp] theorem State.emit_code (t : TraceRecord) : (s.emit t).code = s.code := rfl
@[simp] theorem State.emit_config (t : TraceRecord) : (s.emit t).config = s.config := rfl
@[simp] theorem State.emit_trace (t : TraceRecord) : (s.emit t).trace = s.trace ++ [t] := rfl

/-! ### store -/

@[simp] theorem State.store_regs (w : Width) (a v : Word) : (s.store w a v).regs = s.regs := by
  unfold State.store; split <;> rfl
@[simp] theorem State.store_zf (w : Width) (a v : Word) : (s.store w a v).zf = s.zf := by
  unfold State.store; split <;> rfl
@[simp] theorem State.store_sf (w : Width) (a v : Word) : (s.store w a v).sf = s.sf := by
  unfold State.store; split <;> rfl
@[simp] theorem State.store_ip (w : Width) (a v : Word) : (s.store w a v).ip = s.ip := by
  unfold State.store; split <;> rfl
@[simp] theorem State.store_run (w : Width) (a v : Word) : (s.store w a v).run = s.run := by
  unfold State.store; split <;> rfl
@[simp] theorem State.store_code (w : Width) (a v : Word) : (s.store w a v).code = s.code := by
  unfold State.store; split <;> rfl
@[simp] theorem State.store_config (w : Width) (a v : Word) : (s.store w a v).config = s.config := by
  unfold State.store; split <;> rfl
@[simp] theorem State.store_trace (w : Width) (a v : Word) : (s.store w a v).trace = s.trace := by
  unfold State.store; split <;> rfl

/-! ### writeCount -/

@[simp] theorem State.writeCount_zf (o : Option Word) : (s.writeCount o).zf = s.zf := by
  cases o <;> rfl
@[simp] theorem State.writeCount_sf (o : Option Word) : (s.writeCount o).sf = s.sf := by
  cases o <;> rfl
@[simp] theorem State.writeCount_ip (o : Option Word) : (s.writeCount o).ip = s.ip := by
  cases o <;> rfl
@[simp] theorem State.writeCount_run (o : Option Word) : (s.writeCount o).run = s.run := by
  cases o <;> rfl
@[simp] theorem State.writeCount_mem (o : Option Word) : (s.writeCount o).mem = s.mem := by
  cases o <;> rfl
@[simp] theorem State.writeCount_code (o : Option Word) : (s.writeCount o).code = s.code := by
  cases o <;> rfl
@[simp] theorem State.writeCount_config (o : Option Word) : (s.writeCount o).config = s.config := by
  cases o <;> rfl
@[simp] theorem State.writeCount_trace (o : Option Word) : (s.writeCount o).trace = s.trace := by
  cases o <;> rfl

@[simp] theorem State.writeCount_none : s.writeCount none = s := rfl
@[simp] theorem State.writeCount_some (v : Word) : s.writeCount (some v) = s.setReg .cx v := rfl

/-! ### writeOp: a register or memory, never anything else (R135) -/

@[simp] theorem State.writeOp_reg (w : Width) (r : RegOp) (v : Word) : s.writeOp w (.reg r) v = s.writeReg r v := rfl
@[simp] theorem State.writeOp_mem (w : Width) (m : MemOperand) (v : Word) :
    s.writeOp w (.mem m) v = s.store w (s.ea m) v := rfl

@[simp] theorem State.writeOp_zf (w : Width) (p : Place) (v : Word) : (s.writeOp w p v).zf = s.zf := by
  cases p <;> simp
@[simp] theorem State.writeOp_sf (w : Width) (p : Place) (v : Word) : (s.writeOp w p v).sf = s.sf := by
  cases p <;> simp
@[simp] theorem State.writeOp_ip (w : Width) (p : Place) (v : Word) : (s.writeOp w p v).ip = s.ip := by
  cases p <;> simp
@[simp] theorem State.writeOp_run (w : Width) (p : Place) (v : Word) : (s.writeOp w p v).run = s.run := by
  cases p <;> simp
@[simp] theorem State.writeOp_code (w : Width) (p : Place) (v : Word) : (s.writeOp w p v).code = s.code := by
  cases p <;> simp
@[simp] theorem State.writeOp_config (w : Width) (p : Place) (v : Word) : (s.writeOp w p v).config = s.config := by
  cases p <;> simp
@[simp] theorem State.writeOp_trace (w : Width) (p : Place) (v : Word) : (s.writeOp w p v).trace = s.trace := by
  cases p <;> simp

/-! ### Views of a state through its updates -/

theorem State.memIndex_of_config {s t : State} (h : t.config = s.config) (a : Word) :
    t.memIndex a = s.memIndex a := by
  simp [State.memIndex, h]

@[simp] theorem State.setReg_memIndex (r : Reg) (v : Word) (x : Word) : (s.setReg r v).memIndex x = s.memIndex x := rfl
@[simp] theorem State.setReg_memRead1 (r : Reg) (v : Word) (x : Word) : (s.setReg r v).memRead1 x = s.memRead1 x := rfl
@[simp] theorem State.writeReg_memIndex (r : RegOp) (v : Word) (x : Word) : (s.writeReg r v).memIndex x = s.memIndex x := rfl
@[simp] theorem State.writeReg_memRead1 (r : RegOp) (v : Word) (x : Word) : (s.writeReg r v).memRead1 x = s.memRead1 x := rfl
@[simp] theorem State.memWrite1_reg (a : Word) (v : Byte) (q : Reg) : (s.memWrite1 a v).reg q = s.reg q := rfl
@[simp] theorem State.memWrite1_memIndex (a : Word) (v : Byte) (x : Word) : (s.memWrite1 a v).memIndex x = s.memIndex x := rfl
@[simp] theorem State.memWrite2_reg (a v : Word) (q : Reg) : (s.memWrite2 a v).reg q = s.reg q := rfl
@[simp] theorem State.memWrite2_memIndex (a v : Word) (x : Word) : (s.memWrite2 a v).memIndex x = s.memIndex x := rfl
@[simp] theorem State.setIp_reg (t : Nat) (q : Reg) : (s.setIp t).reg q = s.reg q := rfl
@[simp] theorem State.setIp_memIndex (t : Nat) (x : Word) : (s.setIp t).memIndex x = s.memIndex x := rfl
@[simp] theorem State.setIp_memRead1 (t : Nat) (x : Word) : (s.setIp t).memRead1 x = s.memRead1 x := rfl
@[simp] theorem State.setFlags_reg (z n : Bool) (q : Reg) : (s.setFlags z n).reg q = s.reg q := rfl
@[simp] theorem State.setFlags_memIndex (z n : Bool) (x : Word) : (s.setFlags z n).memIndex x = s.memIndex x := rfl
@[simp] theorem State.setFlags_memRead1 (z n : Bool) (x : Word) : (s.setFlags z n).memRead1 x = s.memRead1 x := rfl
@[simp] theorem State.updateFlags_reg (o : AluOut) (q : Reg) : (s.updateFlags o).reg q = s.reg q := rfl
@[simp] theorem State.updateFlags_memIndex (o : AluOut) (x : Word) : (s.updateFlags o).memIndex x = s.memIndex x := rfl
@[simp] theorem State.updateFlags_memRead1 (o : AluOut) (x : Word) : (s.updateFlags o).memRead1 x = s.memRead1 x := rfl
@[simp] theorem State.halt_reg (r : HaltReason) (q : Reg) : (s.halt r).reg q = s.reg q := rfl
@[simp] theorem State.halt_memIndex (r : HaltReason) (x : Word) : (s.halt r).memIndex x = s.memIndex x := rfl
@[simp] theorem State.halt_memRead1 (r : HaltReason) (x : Word) : (s.halt r).memRead1 x = s.memRead1 x := rfl
@[simp] theorem State.emit_reg (t : TraceRecord) (q : Reg) : (s.emit t).reg q = s.reg q := rfl
@[simp] theorem State.emit_memIndex (t : TraceRecord) (x : Word) : (s.emit t).memIndex x = s.memIndex x := rfl
@[simp] theorem State.emit_memRead1 (t : TraceRecord) (x : Word) : (s.emit t).memRead1 x = s.memRead1 x := rfl

@[simp] theorem State.store_reg (w : Width) (a v : Word) (q : Reg) : (s.store w a v).reg q = s.reg q := by
  simp [State.reg]
@[simp] theorem State.store_memIndex (w : Width) (a v x : Word) : (s.store w a v).memIndex x = s.memIndex x := by
  simp [State.memIndex]
@[simp] theorem State.writeCount_memRead1 (o : Option Word) (x : Word) : (s.writeCount o).memRead1 x = s.memRead1 x := by
  cases o <;> rfl

/-! ### The state at the start of a launch (R38) -/

@[simp] theorem State.start_regs (c : Config) (code : List Byte) (m : Memory) : (State.start c code m).regs = RegFile.reset := rfl
@[simp] theorem State.start_zf (c : Config) (code : List Byte) (m : Memory) : (State.start c code m).zf = false := rfl
@[simp] theorem State.start_sf (c : Config) (code : List Byte) (m : Memory) : (State.start c code m).sf = false := rfl
@[simp] theorem State.start_ip (c : Config) (code : List Byte) (m : Memory) : (State.start c code m).ip = 0 := rfl
@[simp] theorem State.start_run (c : Config) (code : List Byte) (m : Memory) : (State.start c code m).run = .running := rfl
@[simp] theorem State.start_mem (c : Config) (code : List Byte) (m : Memory) : (State.start c code m).mem = m := rfl
@[simp] theorem State.start_code (c : Config) (code : List Byte) (m : Memory) : (State.start c code m).code = code := rfl
@[simp] theorem State.start_config (c : Config) (code : List Byte) (m : Memory) : (State.start c code m).config = c := rfl
@[simp] theorem State.start_trace (c : Config) (code : List Byte) (m : Memory) : (State.start c code m).trace = [] := rfl

/-! ### withFetchWord -/

@[simp] theorem State.withFetchWord_regs (nbits w : Nat) : (s.withFetchWord nbits w).regs = s.regs := rfl
@[simp] theorem State.withFetchWord_zf (nbits w : Nat) : (s.withFetchWord nbits w).zf = s.zf := rfl
@[simp] theorem State.withFetchWord_sf (nbits w : Nat) : (s.withFetchWord nbits w).sf = s.sf := rfl
@[simp] theorem State.withFetchWord_ip (nbits w : Nat) : (s.withFetchWord nbits w).ip = s.ip := rfl
@[simp] theorem State.withFetchWord_run (nbits w : Nat) : (s.withFetchWord nbits w).run = .running := rfl
@[simp] theorem State.withFetchWord_mem (nbits w : Nat) : (s.withFetchWord nbits w).mem = s.mem := rfl
@[simp] theorem State.withFetchWord_code (nbits w : Nat) : (s.withFetchWord nbits w).code = placeBytes s.code s.ip (tableWordBytes nbits w) := rfl
@[simp] theorem State.withFetchWord_config (nbits w : Nat) : (s.withFetchWord nbits w).config = s.config := rfl
@[simp] theorem State.withFetchWord_trace (nbits w : Nat) : (s.withFetchWord nbits w).trace = s.trace := rfl

end Sys2Proof.Machine
end

