-- ==== Sys2Proof/Laws/Registers.lean ====
section
/-! SUPPORT. Bytes and words, and the register file (spec/00_scope.md R9, 10_state.md R20 to R24). -/

namespace Sys2Proof

/-! ### Bytes and words -/

theorem joinBytes_toNat (hi lo : Byte) : (joinBytes hi lo).toNat = hi.toNat * 256 + lo.toNat := by
  rw [joinBytes, BitVec.toNat_append, ← Nat.shiftLeft_add_eq_or_of_lt lo.isLt, Nat.shiftLeft_eq]

theorem lowByte_toNat (v : Word) : (lowByte v).toNat = v.toNat % 256 := by
  simp [lowByte]

theorem highByte_toNat (v : Word) : (highByte v).toNat = v.toNat / 256 := by
  have := v.isLt
  simp only [highByte, BitVec.extractLsb'_toNat, Nat.shiftRight_eq_div_pow]
  omega

theorem zext16_toNat (b : Byte) : (zext16 b).toNat = b.toNat := by
  have := b.isLt
  simp only [zext16, BitVec.toNat_setWidth]
  omega

@[simp] theorem lowByte_joinBytes (hi lo : Byte) : lowByte (joinBytes hi lo) = lo := by
  apply BitVec.eq_of_toNat_eq
  have := lo.isLt
  rw [lowByte_toNat, joinBytes_toNat]
  omega

@[simp] theorem highByte_joinBytes (hi lo : Byte) : highByte (joinBytes hi lo) = hi := by
  apply BitVec.eq_of_toNat_eq
  have := lo.isLt
  rw [highByte_toNat, joinBytes_toNat]
  omega

@[simp] theorem joinBytes_highByte_lowByte (v : Word) : joinBytes (highByte v) (lowByte v) = v := by
  apply BitVec.eq_of_toNat_eq
  rw [joinBytes_toNat, highByte_toNat, lowByte_toNat]
  omega

@[simp] theorem lowByte_zext16 (b : Byte) : lowByte (zext16 b) = b := by
  apply BitVec.eq_of_getLsbD_eq
  intro i hi'
  have : i < 16 := by omega
  simp [lowByte, zext16, hi', this]

@[simp] theorem highByte_zext16 (b : Byte) : highByte (zext16 b) = 0#8 := by
  apply BitVec.eq_of_getLsbD_eq
  intro i hi'
  simp [highByte, zext16]

@[simp] theorem lowByte_sext16 (b : Byte) : lowByte (sext16 b) = b := by
  apply BitVec.eq_of_getLsbD_eq
  intro i hi'
  simp [lowByte, sext16, BitVec.getLsbD_signExtend, hi']
  omega

/-- A word is its two bytes. -/
theorem word_ext {v v' : Word} (hl : lowByte v = lowByte v') (hh : highByte v = highByte v') : v = v' := by
  rw [← joinBytes_highByte_lowByte v, ← joinBytes_highByte_lowByte v', hl, hh]

end Sys2Proof

namespace Sys2Proof.Machine

/-! ### The register file -/

@[simp] theorem RegFile.get_set_same (f : RegFile) (r : Reg) (v : Word) : (f.set r v).get r = v := by
  cases r <;> rfl

theorem RegFile.get_set_other (f : RegFile) {r q : Reg} (h : q ≠ r) (v : Word) : (f.set r v).get q = f.get q := by
  cases r <;> cases q <;> first | rfl | exact absurd rfl h

/-- Two register files that hold the same words are the same. -/
theorem RegFile.ext_get {f g : RegFile} (h : ∀ r, f.get r = g.get r) : f = g := by
  obtain ⟨_, _, _, _, _, _, _, _⟩ := f
  obtain ⟨_, _, _, _, _, _, _, _⟩ := g
  have ha := h .ax
  have hc := h .cx
  have hd := h .dx
  have hb := h .bx
  have hsp := h .sp
  have hbp := h .bp
  have hsi := h .si
  have hdi := h .di
  simp only [RegFile.get] at ha hc hd hb hsp hbp hsi hdi
  simp [*]

@[simp] theorem RegFile.reset_get (r : Reg) : RegFile.reset.get r = 0#16 := by
  cases r <;> rfl

/-- R24: a write through a slice leaves every other register alone. -/
theorem RegFile.get_write_other (f : RegFile) {r : RegOp} {q : Reg} (h : q ≠ r.index) (v : Word) :
    (f.write r v).get q = f.get q :=
  f.get_set_other h _

@[simp] theorem RegFile.get_write_same (f : RegFile) (r : RegOp) (v : Word) :
    (f.write r v).get r.index = Slice.merge r.slice (f.get r.index) v := by
  simp [RegFile.write]

@[simp] theorem State.setReg_reg_same (s : State) (r : Reg) (v : Word) : (s.setReg r v).reg r = v := by
  simp [State.reg]

theorem State.setReg_reg_other (s : State) {r q : Reg} (h : q ≠ r) (v : Word) : (s.setReg r v).reg q = s.reg q := by
  simp [State.reg, RegFile.get_set_other _ h]

theorem State.writeReg_reg_other (s : State) {r : RegOp} {q : Reg} (h : q ≠ r.index) (v : Word) :
    (s.writeReg r v).reg q = s.reg q :=
  s.regs.get_write_other h v

@[simp] theorem State.writeReg_reg_same (s : State) (r : RegOp) (v : Word) :
    (s.writeReg r v).reg r.index = Slice.merge r.slice (s.reg r.index) v := by
  simp [State.reg]

/-- R24: everything a write through a slice does. -/
theorem State.writeReg_wrote (s : State) (r : RegOp) (v : Word) : s.wroteReg (s.writeReg r v) r v := by
  obtain ⟨i, sl⟩ := r
  refine ⟨fun q hq => s.writeReg_reg_other hq v, ?_⟩
  have := s.writeReg_reg_same ⟨i, sl⟩ v
  cases sl <;> simp_all [Slice.merge]

/-- The loop forms' count leaves every register but CX alone (R223). -/
theorem State.writeCount_reg_other (s : State) {q : Reg} (h : q ≠ .cx) (o : Option Word) :
    (s.writeCount o).reg q = s.reg q := by
  cases o with
  | none => rfl
  | some v => exact s.setReg_reg_other h v

end Sys2Proof.Machine
end

