-- ==== Sys2Proof/Laws/Decode.lean ====
section
/-! SUPPORT. The decoder's and the encoder's parts, each with its inverse (spec/30_encoding.md). -/

namespace Sys2Proof

/-! ### The stream -/

@[simp] theorem next8_nil : next8 [] = .error .truncatedStream := rfl

@[simp] theorem next8_cons (b : Byte) (bs : List Byte) : next8 (b :: bs) = .ok (b, bs) := rfl

@[simp] theorem next16_nil : next16 [] = .error .truncatedStream := rfl

@[simp] theorem next16_one (b : Byte) : next16 [b] = .error .truncatedStream := rfl

@[simp] theorem next16_cons (lo hi : Byte) (bs : List Byte) : next16 (lo :: hi :: bs) = .ok (joinBytes hi lo, bs) := rfl

/-- `Next8` takes exactly one byte. -/
theorem next8_eq_ok {bs rest : List Byte} {b : Byte} (h : next8 bs = .ok (b, rest)) : bs = b :: rest := by
  cases bs with
  | nil => simp at h
  | cons x xs => simp_all

/-- `Next16` takes exactly the two bytes of its word, low byte first (R90). -/
theorem next16_eq_ok {bs rest : List Byte} {v : Word} (h : next16 bs = .ok (v, rest)) : bs = wordBytes v ++ rest := by
  match bs, h with
  | [], h => simp at h
  | [_], h => simp at h
  | lo :: hi :: xs, h =>
    simp only [next16_cons, Except.ok.injEq, Prod.mk.injEq] at h
    obtain ⟨rfl, rfl⟩ := h
    simp [wordBytes]

@[simp] theorem next16_wordBytes (v : Word) (rest : List Byte) : next16 (wordBytes v ++ rest) = .ok (v, rest) := by
  simp [wordBytes]

/-- Running a decoder after another: it succeeds exactly when both do. -/
theorem bind_eq_ok {α β : Type} {x : Except DecodeFault α} {f : α → Except DecodeFault β} {b : β} :
    (x >>= f) = .ok b ↔ ∃ a, x = .ok a ∧ f a = .ok b := by
  cases x with
  | error e =>
    refine ⟨fun h => ?_, ?_⟩
    · cases h
    · rintro ⟨a, h, -⟩
      cases h
  | ok a =>
    refine ⟨fun h => ⟨a, rfl, h⟩, ?_⟩
    rintro ⟨a', h, h'⟩
    cases h
    exact h'

@[simp] theorem bind_ok {α β : Type} (a : α) (f : α → Except DecodeFault β) : (Except.ok a >>= f) = f a := rfl

@[simp] theorem bind_error {α β : Type} (e : DecodeFault) (f : α → Except DecodeFault β) :
    (Except.error e >>= f) = .error e := rfl

/-! ### Fields -/

/-- R22: the register-field table, both ways. -/
theorem RegOp.ofField_field {w : Width} {r : RegOp} (h : r.wf w = true) : RegOp.ofField r.field w = r := by
  obtain ⟨i, s⟩ := r
  revert h
  cases w <;> cases s <;> cases i <;> decide

@[simp] theorem RegOp.field_ofField (r : BitVec 3) (w : Width) : (RegOp.ofField r w).field = r := by
  revert r
  cases w <;> decide

@[simp] theorem RegOp.wf_ofField (r : BitVec 3) (w : Width) : (RegOp.ofField r w).wf w = true := by
  revert r
  cases w <;> decide

@[simp] theorem Base.ofField_field (b : Base) : Base.ofField b.field = b := by
  cases b <;> rfl

@[simp] theorem Base.field_ofField (rm : BitVec 3) : (Base.ofField rm).field = rm := by
  revert rm
  decide

@[simp] theorem ArithOp.ofCode_code (op : ArithOp) : ArithOp.ofCode op.code = some op := by
  cases op <;> rfl

theorem ArithOp.code_of_ofCode {c : BitVec 3} {op : ArithOp} (h : ArithOp.ofCode c = some op) : op.code = c := by
  revert c op
  decide

@[simp] theorem modField_modRegRm : ∀ (mode : BitVec 2) (reg rm : BitVec 3), modField (modRegRm mode reg rm) = mode := by
  decide

@[simp] theorem regField_modRegRm : ∀ (mode : BitVec 2) (reg rm : BitVec 3), regField (modRegRm mode reg rm) = reg := by
  decide

@[simp] theorem rmField_modRegRm : ∀ (mode : BitVec 2) (reg rm : BitVec 3), rmField (modRegRm mode reg rm) = rm := by
  decide

/-- R72: the ModRegRm byte is its three fields. -/
@[simp] theorem modRegRm_fields : ∀ b1 : Byte, modRegRm (modField b1) (regField b1) (rmField b1) = b1 := by
  decide

/-! ### Opcode bytes: the class each is classified as, and the fields it carries (R92) -/

theorem movRmOpcode_spec (d : Dir) (w : Width) :
    classify (movRmOpcode d w) = some .movRm ∧ Dir.ofBit (bitAt (movRmOpcode d w) 1) = d ∧
      Width.ofBit (bitAt (movRmOpcode d w) 0) = w := by
  cases d <;> cases w <;> decide

theorem movImmRmOpcode_spec (w : Width) :
    classify (movImmRmOpcode w) = some .movImmRm ∧ Width.ofBit (bitAt (movImmRmOpcode w) 0) = w := by
  cases w <;> decide

theorem movImmRegOpcode_spec (w : Width) : ∀ r : BitVec 3,
    classify (movImmRegOpcode w r) = some .movImmReg ∧ Width.ofBit (bitAt (movImmRegOpcode w r) 3) = w ∧
      (movImmRegOpcode w r).extractLsb' 0 3 = r := by
  cases w <;> decide

theorem arithRmOpcode_spec (op : ArithOp) (d : Dir) (w : Width) :
    classify (arithRmOpcode op d w) = some .arithRm ∧ ArithOp.ofCode (opcodeArithCode (arithRmOpcode op d w)) = some op ∧
      Dir.ofBit (bitAt (arithRmOpcode op d w) 1) = d ∧ Width.ofBit (bitAt (arithRmOpcode op d w) 0) = w := by
  cases op <;> cases d <;> cases w <;> decide

theorem arithImmOpcode_spec (s : Bool) (w : Width) :
    classify (arithImmOpcode s w) = some .arithImmRm ∧ bitAt (arithImmOpcode s w) 1 = s ∧
      Width.ofBit (bitAt (arithImmOpcode s w) 0) = w := by
  cases s <;> cases w <;> decide

theorem accOpcode_spec (op : ArithOp) (w : Width) :
    classify (accOpcode op w) = some .arithAcc ∧ ArithOp.ofCode (opcodeArithCode (accOpcode op w)) = some op ∧
      Width.ofBit (bitAt (accOpcode op w) 0) = w := by
  cases op <;> cases w <;> decide

/-! ### Opcode bytes, back: a classified byte is the opcode byte of the fields read from it (R92) -/

theorem movRmOpcode_back : ∀ b0 : Byte, classify b0 = some .movRm →
    movRmOpcode (Dir.ofBit (bitAt b0 1)) (Width.ofBit (bitAt b0 0)) = b0 := by
  decide

theorem movImmRmOpcode_back : ∀ b0 : Byte, classify b0 = some .movImmRm →
    movImmRmOpcode (Width.ofBit (bitAt b0 0)) = b0 := by
  decide

theorem movImmRegOpcode_back : ∀ b0 : Byte, classify b0 = some .movImmReg →
    movImmRegOpcode (Width.ofBit (bitAt b0 3)) (b0.extractLsb' 0 3) = b0 := by
  decide

theorem arithRmOpcode_back : ∀ b0 : Byte, classify b0 = some .arithRm →
    ∀ op, ArithOp.ofCode (opcodeArithCode b0) = some op →
      arithRmOpcode op (Dir.ofBit (bitAt b0 1)) (Width.ofBit (bitAt b0 0)) = b0 := by
  decide

theorem arithImmOpcode_back : ∀ b0 : Byte, classify b0 = some .arithImmRm →
    arithImmOpcode (bitAt b0 1) (Width.ofBit (bitAt b0 0)) = b0 := by
  decide

theorem accOpcode_back : ∀ b0 : Byte, classify b0 = some .arithAcc →
    ∀ op, ArithOp.ofCode (opcodeArithCode b0) = some op → accOpcode op (Width.ofBit (bitAt b0 0)) = b0 := by
  decide

theorem jccOpcode_back : ∀ b0 : Byte, classify b0 = some .jcc →
    (BranchOp.ofCc (b0.extractLsb' 0 4)).opcode = b0 := by
  decide

theorem loopOpcode_back : ∀ b0 : Byte, classify b0 = some .loop →
    (BranchOp.ofKk (b0.extractLsb' 0 2)).opcode = b0 := by
  decide

theorem BranchOp.encode_instr (b : BranchOp) (d : Byte) : encode (b.instr d) = [b.opcode, d] := by
  cases b <;> rfl

@[simp] theorem BranchOp.instr_wf (b : BranchOp) (d : Byte) : (b.instr d).wf = true := by
  cases b <;> rfl

/-! ### Operand forms -/

/-- R78: with mod = 00 no base expression shares the direct address's rm field. -/
theorem Base.field_of_wf {b : Base} (h : (MemForm.plain b).wf = true) : b.field ≠ 0b110#3 := by
  cases b <;> first | exact absurd h (by decide) | decide

theorem MemForm.plain_wf_ofField : ∀ {rm : BitVec 3}, rm ≠ 0b110#3 → (MemForm.plain (Base.ofField rm)).wf = true := by
  decide

theorem mod_cases : ∀ m : BitVec 2, m = 0b11#2 ∨ m = 0b00#2 ∨ m = 0b01#2 ∨ m = 0b10#2 := by
  decide

/-- R78: decoding an encoded rm operand gives it back. -/
theorem decodeRmOperand_encode {w : Width} {rm : RmOperand} (h : rm.wf w = true) (rest : List Byte) :
    decodeRmOperand rm.modBits rm.rmBits w (rm.dispBytes ++ rest) = .ok (rm, rest) := by
  cases rm with
  | reg r => simp [RmOperand.modBits, RmOperand.rmBits, RmOperand.dispBytes, decodeRmOperand, RegOp.ofField_field h]
  | mem m =>
    cases m with
    | direct addr => simp [RmOperand.modBits, RmOperand.rmBits, RmOperand.dispBytes, MemForm.modBits, MemForm.rmBits,
        MemForm.dispBytes, decodeRmOperand]
    | plain b =>
      have hb : b.field ≠ 0b110#3 := Base.field_of_wf h
      simp [RmOperand.modBits, RmOperand.rmBits, RmOperand.dispBytes, MemForm.modBits, MemForm.rmBits,
        MemForm.dispBytes, decodeRmOperand, hb]
    | disp8 b d => simp [RmOperand.modBits, RmOperand.rmBits, RmOperand.dispBytes, MemForm.modBits, MemForm.rmBits,
        MemForm.dispBytes, decodeRmOperand]
    | disp16 b d => simp [RmOperand.modBits, RmOperand.rmBits, RmOperand.dispBytes, MemForm.modBits, MemForm.rmBits,
        MemForm.dispBytes, decodeRmOperand]

/-- R78: a decoded rm operand is well formed, and its fields and displacement bytes are the ones read. -/
theorem decodeRmOperand_eq_ok {mode : BitVec 2} {rm : BitVec 3} {w : Width} {bs rest : List Byte} {o : RmOperand}
    (h : decodeRmOperand mode rm w bs = .ok (o, rest)) :
    o.wf w = true ∧ o.modBits = mode ∧ o.rmBits = rm ∧ bs = o.dispBytes ++ rest := by
  rcases mod_cases mode with rfl | rfl | rfl | rfl
  · simp only [decodeRmOperand, Except.ok.injEq, Prod.mk.injEq] at h
    obtain ⟨rfl, rfl⟩ := h
    simp [RmOperand.wf, RmOperand.modBits, RmOperand.rmBits, RmOperand.dispBytes]
  · simp only [decodeRmOperand] at h
    split at h
    · rename_i hr
      obtain ⟨⟨a, bs'⟩, ha, h⟩ := bind_eq_ok.1 h
      cases h
      simp [RmOperand.wf, MemForm.wf, RmOperand.modBits, RmOperand.rmBits, RmOperand.dispBytes, MemForm.modBits,
        MemForm.rmBits, MemForm.dispBytes, hr, next16_eq_ok ha]
    · rename_i hr
      simp only [Except.ok.injEq, Prod.mk.injEq] at h
      obtain ⟨rfl, rfl⟩ := h
      exact ⟨MemForm.plain_wf_ofField hr, by simp [RmOperand.modBits, MemForm.modBits],
        by simp [RmOperand.rmBits, MemForm.rmBits], by simp [RmOperand.dispBytes, MemForm.dispBytes]⟩
  · obtain ⟨⟨a, bs'⟩, ha, h⟩ := bind_eq_ok.1 h
    cases h
    simp [RmOperand.wf, MemForm.wf, RmOperand.modBits, RmOperand.rmBits, RmOperand.dispBytes, MemForm.modBits,
      MemForm.rmBits, MemForm.dispBytes, next8_eq_ok ha]
  · obtain ⟨⟨a, bs'⟩, ha, h⟩ := bind_eq_ok.1 h
    cases h
    simp [RmOperand.wf, MemForm.wf, RmOperand.modBits, RmOperand.rmBits, RmOperand.dispBytes, MemForm.modBits,
      MemForm.rmBits, MemForm.dispBytes, next16_eq_ok ha]

/-- R87, R88: decoding the data bytes of an immediate the form can give yields it. -/
theorem decodeImm_immBytes {s : Bool} {w : Width} {v : Word} (h : immFits s w v = true) (rest : List Byte) :
    decodeImm s w (immBytes s w v ++ rest) = .ok (v, rest) := by
  have hz : v.setWidth 8 = lowByte v := by
    apply BitVec.eq_of_toNat_eq
    simp [lowByte_toNat]
  cases w with
  | byte =>
    have hv : zext16 (lowByte v) = v := by
      simp only [immFits, beq_iff_eq, hz] at h
      exact h.symm
    cases s <;> simp [immBytes, decodeImm, hv]
  | word =>
    cases s with
    | false => simp [immBytes, decodeImm]
    | true =>
      have hv : sext16 (lowByte v) = v := by
        simp only [immFits, beq_iff_eq, hz] at h
        exact h.symm
      simp [immBytes, decodeImm, hv]

/-- R87, R88: a decoded immediate is one the form can give, and its data bytes are the ones read. -/
theorem decodeImm_eq_ok {s : Bool} {w : Width} {bs rest : List Byte} {v : Word}
    (h : decodeImm s w bs = .ok (v, rest)) : immFits s w v = true ∧ bs = immBytes s w v ++ rest := by
  have hz : ∀ x : Word, x.setWidth 8 = lowByte x := fun x => by
    apply BitVec.eq_of_toNat_eq
    simp [lowByte_toNat]
  cases w with
  | byte =>
    cases s <;>
    · obtain ⟨⟨a, bs'⟩, ha, h⟩ := bind_eq_ok.1 h
      cases h
      refine ⟨?_, by simp [immBytes, next8_eq_ok ha]⟩
      simp only [immFits, beq_iff_eq, hz, lowByte_zext16]
      rfl
  | word =>
    cases s with
    | false => exact ⟨rfl, next16_eq_ok h⟩
    | true =>
      obtain ⟨⟨a, bs'⟩, ha, h⟩ := bind_eq_ok.1 h
      cases h
      refine ⟨?_, by simp [immBytes, next8_eq_ok ha]⟩
      simp only [immFits, beq_iff_eq, hz, lowByte_sext16]
      rfl

/-! ### The cases of the decoder (R104) -/

/-- R104: after the opcode byte, decode is the class's case. -/
theorem decode_cons (b0 : Byte) (bs : List Byte) :
    decode (b0 :: bs) =
      match classify b0 with
      | some c => decodeClass c b0 bs
      | none => .error .unsupportedOpcode := rfl

theorem decodeRm_encode (mk : Dir → Width → RegOp → RmOperand → Instr) {b0 : Byte} {d : Dir} {w : Width} {reg : RegOp}
    {rm : RmOperand} (h1 : Dir.ofBit (bitAt b0 1) = d) (h0 : Width.ofBit (bitAt b0 0) = w) (hr : reg.wf w = true)
    (hm : rm.wf w = true) (rest : List Byte) :
    decodeRm mk b0 (encodeModRegRm reg.field rm ++ rest) = .ok (mk d w reg rm, rest) := by
  subst h1 h0
  simp only [decodeRm, encodeModRegRm, List.cons_append, next8_cons, bind_ok, modField_modRegRm, rmField_modRegRm,
    regField_modRegRm, decodeRmOperand_encode hm, RegOp.ofField_field hr]
  rfl

theorem decodeRm_eq_ok {mk : Dir → Width → RegOp → RmOperand → Instr} {b0 : Byte} {bs rest : List Byte} {i : Instr}
    (h : decodeRm mk b0 bs = .ok (i, rest)) :
    ∃ reg rm, i = mk (Dir.ofBit (bitAt b0 1)) (Width.ofBit (bitAt b0 0)) reg rm ∧
      reg.wf (Width.ofBit (bitAt b0 0)) = true ∧ rm.wf (Width.ofBit (bitAt b0 0)) = true ∧
      bs = encodeModRegRm reg.field rm ++ rest := by
  obtain ⟨⟨b1, bs1⟩, h1, h⟩ := bind_eq_ok.1 h
  obtain ⟨⟨rm, bs2⟩, h2, h⟩ := bind_eq_ok.1 h
  cases h
  obtain ⟨hwf, hmod, hrm, hbs⟩ := decodeRmOperand_eq_ok h2
  refine ⟨_, rm, rfl, RegOp.wf_ofField _ _, hwf, ?_⟩
  rw [next8_eq_ok h1, encodeModRegRm, hmod, hrm, RegOp.field_ofField, modRegRm_fields]
  rw [hbs]
  rfl

theorem decodeImmRm_encode (mk : RmOperand → Word → Instr) {s : Bool} {w : Width} (reg : BitVec 3) {rm : RmOperand}
    {v : Word} (hm : rm.wf w = true) (hv : immFits s w v = true) (rest : List Byte) :
    decodeImmRm mk s w (modRegRm rm.modBits reg rm.rmBits) (rm.dispBytes ++ (immBytes s w v ++ rest)) =
      .ok (mk rm v, rest) := by
  simp only [decodeImmRm, modField_modRegRm, rmField_modRegRm, decodeRmOperand_encode hm, bind_ok, decodeImm_immBytes hv]
  rfl

theorem decodeImmRm_eq_ok {mk : RmOperand → Word → Instr} {s : Bool} {w : Width} {b1 : Byte} {bs rest : List Byte}
    {i : Instr} (h : decodeImmRm mk s w b1 bs = .ok (i, rest)) :
    ∃ rm v, i = mk rm v ∧ rm.wf w = true ∧ immFits s w v = true ∧
      b1 :: bs = encodeModRegRm (regField b1) rm ++ (immBytes s w v ++ rest) := by
  obtain ⟨⟨rm, bs1⟩, h1, h⟩ := bind_eq_ok.1 h
  obtain ⟨⟨v, bs2⟩, h2, h⟩ := bind_eq_ok.1 h
  cases h
  obtain ⟨hwf, hmod, hrm, hbs⟩ := decodeRmOperand_eq_ok h1
  obtain ⟨hv, hbs2⟩ := decodeImm_eq_ok h2
  refine ⟨rm, v, rfl, hwf, hv, ?_⟩
  rw [encodeModRegRm, hmod, hrm, modRegRm_fields, hbs, hbs2]
  rfl

/-! ### Lengths (R100) -/

theorem RmOperand.dispBytes_length (rm : RmOperand) : rm.dispBytes.length = rm.dispLen := by
  cases rm with
  | reg r => rfl
  | mem m => cases m <;> rfl

theorem encodeModRegRm_length (reg : BitVec 3) (rm : RmOperand) : (encodeModRegRm reg rm).length = 1 + rm.dispLen := by
  rw [encodeModRegRm, List.length_cons, RmOperand.dispBytes_length, Nat.add_comm]

theorem immBytes_length (s : Bool) (w : Width) (v : Word) : (immBytes s w v).length = immLen s w := by
  cases s <;> cases w <;> rfl

theorem RmOperand.dispLen_eq {w : Width} {rm : RmOperand} (h : rm.wf w = true) :
    dispLenOf rm.modBits rm.rmBits = rm.dispLen := by
  cases rm with
  | reg r => rfl
  | mem m =>
    cases m with
    | plain b => cases b <;> first | rfl | cases h
    | _ => rfl

theorem RmOperand.dispLen_le (rm : RmOperand) : rm.dispLen ≤ 2 := by
  cases rm with
  | reg r => exact Nat.zero_le 2
  | mem m => cases m <;> simp [RmOperand.dispLen]

theorem immLen_bounds : ∀ (s : Bool) (w : Width), 1 ≤ immLen s w ∧ immLen s w ≤ 2
  | false, .byte | false, .word | true, .byte | true, .word => by decide

end Sys2Proof
end

