-- ==== Sys2Proof/Laws/Memory.lean ====
section
/-! SUPPORT. Data memory: what a read after a write gives, and that every memory operation keeps the canonical form
(spec/20_memory.md R50 to R53). -/

namespace Sys2Proof.Machine

/-! ### One byte -/

/-- A read below every listed address finds the unlisted byte. -/
theorem Memory.read_of_lt {m : Memory} {a : Nat} (h : ∀ c ∈ m, a < c.1) : m.read a = unlistedByte := by
  induction m with
  | nil => rfl
  | cons c m ih =>
    have hc : a < c.1 := h c (by simp)
    have hne : c.1 ≠ a := by omega
    simp only [Memory.read, if_neg hne]
    exact ih fun c' hc' => h c' (by simp [hc'])

/-- Every cell of a written memory is the written one or was there before. -/
theorem Memory.mem_write {m : Memory} {a : Nat} {v : Byte} {c : Host.Cell} (h : c ∈ m.write a v) :
    (c = (a, v) ∧ v ≠ unlistedByte) ∨ c ∈ m := by
  induction m with
  | nil =>
    simp only [Memory.write] at h
    split at h
    · simp at h
    · simp_all
  | cons d m ih =>
    obtain ⟨k, b⟩ := d
    simp only [Memory.write] at h
    split at h
    · split at h
      · exact .inr h
      · simp only [List.mem_cons] at h ⊢
        tauto
    · split at h
      · split at h
        · exact .inr (by simp [h])
        · simp only [List.mem_cons] at h ⊢
          tauto
      · simp only [List.mem_cons] at h ⊢
        rcases h with h | h
        · exact .inr (.inl h)
        · rcases ih h with h | h
          · exact .inl h
          · exact .inr (.inr h)

/-- A write keeps the canonical form. -/
theorem Memory.write_wf {m : Memory} (h : m.wf) (a : Nat) (v : Byte) : (m.write a v).wf := by
  refine ⟨?_, fun c hc => ?_⟩
  · obtain ⟨hp, -⟩ := h
    induction m with
    | nil =>
      simp only [Memory.write]
      split <;> simp
    | cons d m ih =>
      obtain ⟨k, b⟩ := d
      rw [List.pairwise_cons] at hp
      simp only [Memory.write]
      split
      · rename_i hak
        split
        · exact List.pairwise_cons.2 hp
        · refine List.pairwise_cons.2 ⟨fun c hc => ?_, List.pairwise_cons.2 hp⟩
          rcases List.mem_cons.1 hc with rfl | hc
          · exact hak
          · exact Nat.lt_trans hak (hp.1 c hc)
      · split
        · rename_i hak
          split
          · exact hp.2
          · exact List.pairwise_cons.2 ⟨fun c hc => by simpa [hak] using hp.1 c hc, hp.2⟩
        · refine List.pairwise_cons.2 ⟨fun c hc => ?_, ih hp.2⟩
          rcases Memory.mem_write hc with ⟨rfl, -⟩ | hc
          · show k < a
            omega
          · exact hp.1 c hc
  · rcases Memory.mem_write hc with ⟨rfl, hv⟩ | hc
    · exact hv
    · exact h.2 c hc

/-- A write to an index below `n` keeps memory inside MEM[0..n-1]. -/
theorem Memory.write_within {m : Memory} {n a : Nat} (h : m.within n) (ha : a < n) (v : Byte) :
    (m.write a v).within n := by
  intro c hc
  rcases Memory.mem_write hc with ⟨rfl, -⟩ | hc
  · exact ha
  · exact h c hc

theorem Memory.read_write_same {m : Memory} (h : m.wf) (a : Nat) (v : Byte) : (m.write a v).read a = v := by
  obtain ⟨hp, -⟩ := h
  induction m with
  | nil =>
    simp only [Memory.write]
    split
    · rename_i hv
      simp [Memory.read, hv]
    · simp [Memory.read]
  | cons d m ih =>
    obtain ⟨k, b⟩ := d
    rw [List.pairwise_cons] at hp
    simp only [Memory.write]
    split
    · rename_i hak
      split
      · rename_i hv
        rw [hv]
        refine Memory.read_of_lt fun c hc => ?_
        rcases List.mem_cons.1 hc with rfl | hc
        · exact hak
        · exact Nat.lt_trans hak (hp.1 c hc)
      · simp [Memory.read]
    · split
      · rename_i hak
        split
        · rename_i hv
          rw [hv]
          exact Memory.read_of_lt fun c hc => by simpa [hak] using hp.1 c hc
        · simp [Memory.read]
      · rename_i hak
        have hne : k ≠ a := fun e => hak e.symm
        simp only [Memory.read, if_neg hne]
        exact ih hp.2

theorem Memory.read_write_other (m : Memory) {a x : Nat} (hx : x ≠ a) (v : Byte) :
    (m.write a v).read x = m.read x := by
  have hax : a ≠ x := fun e => hx e.symm
  induction m with
  | nil =>
    simp only [Memory.write]
    split <;> simp [Memory.read, hax]
  | cons d m ih =>
    obtain ⟨k, b⟩ := d
    simp only [Memory.write]
    split
    · split <;> simp [Memory.read, hax]
    · split
      · rename_i hak
        split <;> simp [Memory.read, hax, ← hak]
      · simp only [Memory.read, ih]

/-! ### The state's memory -/

/-- R50: under a legal MEM_SIZE every address reaches a byte of MEM. -/
theorem State.memIndex_lt {s : State} (h : s.config.legal) (a : Word) : s.memIndex a < s.config.memSize :=
  Nat.mod_lt _ h.1

theorem State.memWrite1_read_same {s : State} (h : s.mem.wf) (a : Word) (v : Byte) : (s.memWrite1 a v).memRead1 a = v :=
  Memory.read_write_same h _ v

theorem State.memWrite1_read_other (s : State) {a x : Word} (h : s.memIndex x ≠ s.memIndex a) (v : Byte) :
    (s.memWrite1 a v).memRead1 x = s.memRead1 x :=
  s.mem.read_write_other h v

theorem State.memWrite1_wf {s : State} (h : s.mem.wf) (a : Word) (v : Byte) : (s.memWrite1 a v).mem.wf :=
  Memory.write_wf h _ v

theorem State.memWrite2_wf {s : State} (h : s.mem.wf) (a v : Word) : (s.memWrite2 a v).mem.wf :=
  Memory.write_wf (Memory.write_wf h _ _) _ _

/-- R53: what a word store leaves at every address. The high byte's write is the later one. -/
theorem State.memWrite2_read {s : State} (h : s.mem.wf) (a v x : Word) :
    (s.memWrite2 a v).memRead1 x =
      if s.memIndex x = s.memIndex (a + 1#16) then highByte v
      else if s.memIndex x = s.memIndex a then lowByte v
      else s.memRead1 x := by
  unfold State.memWrite2
  split
  · rename_i hx
    have := State.memWrite1_read_same (State.memWrite1_wf h a (lowByte v)) (a + 1#16) (highByte v)
    simpa [State.memRead1, hx] using this
  · rename_i hx
    rw [State.memWrite1_read_other _ (by simpa using hx)]
    split
    · rename_i hx'
      have := State.memWrite1_read_same h a (lowByte v)
      simpa [State.memRead1, hx'] using this
    · rename_i hx'
      exact State.memWrite1_read_other s hx' _

/-- R53, R135: everything the store of a memory destination does. -/
theorem State.store_wrote {s : State} (h : s.mem.wf) (w : Width) (a v : Word) :
    s.wroteMem (s.store w a v) (storeBytes s.config w) a v := by
  unfold State.store
  by_cases h2 : storeBytes s.config w = 2
  · have key := State.memWrite2_read h a v
    rw [if_pos h2, h2]
    simp only [State.wroteMem, if_true]
    exact ⟨by simp [key], fun hne => by simp [key, hne], fun x h1 h2 => by simp [key, h1, h2]⟩
  · rw [if_neg h2]
    simp only [State.wroteMem, if_neg h2]
    exact ⟨State.memWrite1_read_same h a _, fun x hx => State.memWrite1_read_other s hx _⟩

/-- Every store keeps the canonical form (R135). -/
theorem State.store_wf {s : State} (h : s.mem.wf) (w : Width) (a v : Word) : (s.store w a v).mem.wf := by
  unfold State.store
  split
  · exact State.memWrite2_wf h a v
  · exact State.memWrite1_wf h a _

/-- Every store stays inside MEM (R50, R56). -/
theorem State.store_within {s : State} (hc : s.config.legal) (h : s.mem.within s.config.memSize) (w : Width) (a v : Word) :
    (s.store w a v).mem.within s.config.memSize := by
  unfold State.store
  split
  · exact Memory.write_within (Memory.write_within h (State.memIndex_lt hc a) _) (State.memIndex_lt hc _) _
  · exact Memory.write_within h (State.memIndex_lt hc a) _

/-- Every write of an operand keeps the canonical form (R135). -/
theorem State.writeOp_wf {s : State} (h : s.mem.wf) (w : Width) (p : Place) (v : Word) : (s.writeOp w p v).mem.wf := by
  cases p with
  | reg r => exact h
  | mem m => exact State.store_wf h w _ v

theorem State.writeOp_within {s : State} (hc : s.config.legal) (h : s.mem.within s.config.memSize) (w : Width) (p : Place)
    (v : Word) : (s.writeOp w p v).mem.within s.config.memSize := by
  cases p with
  | reg r => exact h
  | mem m => exact State.store_within hc h w _ v

/-- The memory of the reset state is canonical (R38). -/
theorem State.reset_mem_wf : State.reset.mem.wf := by decide

end Sys2Proof.Machine
end

