-- ==== Sys2Proof/Laws/Exec.lean ====
section
/-! SUPPORT. Everything each shared operation can do, said once, and which of them each instruction runs
(spec/40_datapath.md R154). -/

namespace Sys2Proof.Machine

/-! ### The ALU function and the writeback of an arithmetic operation (R180 to R189) -/

def fnOf : ArithOp → AluFn
  | .add => .add
  | .sub | .cmp => .sub

def writesBack : ArithOp → Bool
  | .add | .sub => true
  | .cmp => false

/-! ### Which shared operation an instruction runs (R154) -/

theorem exec_mov {i : Instr} (h : i.op = .mov) :
    ∃ w p o, i.width = some w ∧ i.dst = some p ∧ i.src = some o ∧
      ∀ s, exec i s = movExec w p (s.readOp w o) (s.next i) s := by
  cases i <;> first
    | exact ⟨_, _, _, rfl, rfl, rfl, fun _ => rfl⟩
    | exact absurd h (by simp [Instr.op])

theorem exec_arith {i : Instr} {a : ArithOp} (h : i.op = .arith a) :
    ∃ w p o, i.width = some w ∧ i.dst = some p ∧ i.src = some o ∧
      ∀ s, exec i s = arithExec (fnOf a) p o w (writesBack a) (s.next i) s := by
  cases i <;> simp only [Instr.op, Op.arith.injEq, reduceCtorEq] at h <;> subst h <;>
    exact ⟨_, _, _, rfl, rfl, rfl, fun _ => rfl⟩

theorem exec_branch {i : Instr} {b : BranchOp} (h : i.op = .branch b) :
    ∃ d, i = b.instr d ∧ i.len = 2 ∧ ∀ s, exec i s = branchExec b d (s.ip + 2) s := by
  cases i <;> simp only [Instr.op, Op.branch.injEq, reduceCtorEq] at h <;> subst h <;>
    exact ⟨_, rfl, rfl, fun _ => rfl⟩

theorem exec_instr (b : BranchOp) (d : Byte) (s : State) : exec (b.instr d) s = branchExec b d (s.ip + 2) s := by
  cases b <;> rfl

@[simp] theorem BranchOp.instr_op (b : BranchOp) (d : Byte) : (b.instr d).op = .branch b := by
  cases b <;> rfl

@[simp] theorem BranchOp.instr_len (b : BranchOp) (d : Byte) : (b.instr d).len = 2 := by
  cases b <;> rfl

/-! ### The shared operations -/

/-- R189, R243: a memory destination stops the CORE before anything is read. -/
theorem arithExec_mem (fn : AluFn) (m : MemOperand) (o : Operand) (w : Width) (wb : Bool) (n : Nat) (s : State) :
    arithExec fn (.mem m) o w wb n s = .next (s.halt .unimplementedDestination) := rfl

/-- R189: what a register destination gives. -/
theorem arithExec_reg (fn : AluFn) (r : RegOp) (o : Operand) (w : Width) (wb : Bool) (n : Nat) (s : State) :
    arithExec fn (.reg r) o w wb n s =
      .next ((((if wb then s.writeReg r (alu s.config fn w (s.readOp w (.reg r)) (s.readOp w o)).r else s)).updateFlags
        (alu s.config fn w (s.readOp w (.reg r)) (s.readOp w o))).setIp n) := rfl

/-- R220: the three ways a branch can end. -/
theorem branchExec_cases (b : BranchOp) (d : Byte) (n : Nat) (s : State) :
    ((s.cond b).1 = .unevaluable ∧ branchExec b d n s = .next (s.halt .unimplementedCondition)) ∨
    ((s.cond b).1 = .taken ∧ s.outOfStream (branchTarget n d) = true ∧
      branchExec b d n s = .next (s.halt .branchOutOfStream)) ∨
    (∃ t, branchExec b d n s = .next ((s.writeCount (s.cond b).2).setIp t) ∧
      (((s.cond b).1 = .notTaken ∧ t = n) ∨
       ((s.cond b).1 = .taken ∧ s.outOfStream (branchTarget n d) = false ∧ t = (branchTarget n d).toNat))) := by
  unfold branchExec
  cases (s.cond b).1 with
  | unevaluable => exact .inl ⟨rfl, rfl⟩
  | notTaken => exact .inr (.inr ⟨n, rfl, .inl ⟨rfl, rfl⟩⟩)
  | taken =>
    cases h : s.outOfStream (branchTarget n d) with
    | true => exact .inr (.inl ⟨rfl, rfl, rfl⟩)
    | false => exact .inr (.inr ⟨_, rfl, .inr ⟨rfl, rfl, rfl⟩⟩)

/-- R144, R145: a target inside the stream is a natural number at most L. -/
theorem target_of_inStream {s : State} {t : Int} (h : s.outOfStream t = false) :
    0 ≤ t ∧ t.toNat ≤ s.code.length ∧ (t.toNat : Int) = t := by
  simp only [State.outOfStream, decide_eq_false_iff_not, not_or, Int.not_lt] at h
  omega

@[simp] theorem BranchOp.instr_disp8 (b : BranchOp) (d : Byte) : (b.instr d).disp8 = some d := by
  cases b <;> rfl

/-- R145: when the target of a branch lies outside the stream. -/
theorem outOfStream_iff (s : State) (d : Byte) :
    s.outOfStream (branchTarget (s.ip + 2) d) = true ↔
      ((s.ip : Int) + 2 + d.toInt < 0 ∨ (s.code.length : Int) < (s.ip : Int) + 2 + d.toInt) := by
  simp [State.outOfStream, branchTarget]

/-- R221, R222: which verdicts are Unevaluable. -/
theorem cond_unevaluable_iff (s : State) (b : BranchOp) :
    (s.cond b).1 = .unevaluable ↔ s.config.branchEval = .extended ∧
      b ∈ [.jo, .jno, .jb, .jnb, .jbe, .ja, .jp, .jnp, .jl, .jnl, .jle, .jg] := by
  have hb : ∀ x, Verdict.ofBool x ≠ .unevaluable := by intro x; cases x <;> simp [Verdict.ofBool]
  cases h : s.config.branchEval <;> cases b <;> simp [State.cond, h, condReference, condExtended, hb]

/-- R220: a branch that is not taken. -/
theorem branchExec_notTaken {b : BranchOp} {s : State} (h : (s.cond b).1 = .notTaken) (d : Byte) (n : Nat) :
    branchExec b d n s = .next ((s.writeCount (s.cond b).2).setIp n) := by
  unfold branchExec
  rw [h]

/-- R220: a branch that is taken to a target in the stream. -/
theorem branchExec_taken {b : BranchOp} {d : Byte} {s : State} {n : Nat} (h : (s.cond b).1 = .taken)
    (hn : (n : Int) = (s.ip : Int) + 2 + d.toInt) (hl : n ≤ s.code.length) :
    branchExec b d (s.ip + 2) s = .next ((s.writeCount (s.cond b).2).setIp n) := by
  have ho : s.outOfStream (branchTarget (s.ip + 2) d) = false := by
    rw [Bool.eq_false_iff, Ne, outOfStream_iff]
    omega
  have ht : (branchTarget (s.ip + 2) d).toNat = n := by
    simp only [branchTarget]
    omega
  unfold branchExec
  rw [h]
  simp [ho, ht]

/-- R220, R245: a branch that is taken out of the stream. -/
theorem branchExec_outOfStream {b : BranchOp} {d : Byte} {s : State} (h : (s.cond b).1 = .taken)
    (ho : (s.ip : Int) + 2 + d.toInt < 0 ∨ (s.code.length : Int) < (s.ip : Int) + 2 + d.toInt) :
    branchExec b d (s.ip + 2) s = .next (s.halt .branchOutOfStream) := by
  unfold branchExec
  rw [h]
  simp [(outOfStream_iff s d).2 ho]

/-- R6, R27, R38: a launch that is accepted. -/
theorem launch_eq_next {c : Config} {code : List Byte} {m : Memory} {s : State} (h : State.launch c code m = .next s) :
    s = State.start c code m ∧ c.legal ∧ code.length ≤ c.maxCode ∧ m.wf ∧ m.within c.memSize := by
  unfold State.launch at h
  split at h
  · cases h
  split at h
  · cases h
  split at h
  · cases h
  rename_i h1 h2 h3
  cases h
  rw [not_not] at h1 h3
  exact ⟨rfl, h1, Nat.le_of_not_lt h2, h3⟩

/-- Every instruction answers a next state (R278). The state is either the starting one with RUN halted for an execute
fault (R151), or one that keeps RUN, the program, the parameters and the trace. -/
theorem exec_next (i : Instr) (s : State) :
    ∃ t, exec i s = .next t ∧
      ((∃ r, t = s.halt r ∧ (r = .unimplementedDestination ∨ r = .unimplementedCondition ∨ r = .branchOutOfStream)) ∨
       s.sameControl t) := by
  cases h : i.op with
  | mov =>
    obtain ⟨w, p, o, -, -, -, he⟩ := exec_mov h
    exact ⟨_, he s, .inr (by simp [State.sameControl])⟩
  | arith a =>
    obtain ⟨w, p, o, -, -, -, he⟩ := exec_arith h
    cases p with
    | mem m => exact ⟨_, he s, .inl ⟨_, rfl, .inl rfl⟩⟩
    | reg r =>
      refine ⟨_, he s, .inr ?_⟩
      cases writesBack a <;> simp [State.sameControl]
  | branch b =>
    obtain ⟨d, -, -, he⟩ := exec_branch h
    rcases branchExec_cases b d (s.ip + 2) s with ⟨-, hb⟩ | ⟨-, -, hb⟩ | ⟨t, hb, -⟩
    · exact ⟨_, (he s).trans hb, .inl ⟨_, rfl, .inr (.inl rfl)⟩⟩
    · exact ⟨_, (he s).trans hb, .inl ⟨_, rfl, .inr (.inr rfl)⟩⟩
    · exact ⟨_, (he s).trans hb, .inr (by simp [State.sameControl])⟩

/-! ### The step (R150) -/

/-- Everything a step from a running state can do. -/
theorem step_cases {s t : State} (hr : s.run = .running) (h : step s = .next t) :
    (s.ip = s.code.length ∧ t = s.halt .endOfStream) ∨
    (s.ip ≠ s.code.length ∧ ∃ f, decode s.fetch = .error f ∧ t = s.halt (decodeFaultReason f)) ∨
    (s.ip ≠ s.code.length ∧ ∃ i rest u, decode s.fetch = .ok (i, rest) ∧ exec i s = .next u ∧
      ((∃ r, u.run = .halted r ∧ t = u) ∨ (u.run = .running ∧ t = u.emit (traceRecord i s u)))) := by
  unfold step at h
  rw [hr] at h
  simp only at h
  split at h
  · rename_i hend
    cases h
    exact .inl ⟨by simpa [State.atEnd] using hend, rfl⟩
  · rename_i hend
    have hne : s.ip ≠ s.code.length := by simpa [State.atEnd] using hend
    split at h
    · rename_i f hf
      cases h
      exact .inr (.inl ⟨hne, f, hf, rfl⟩)
    · rename_i i rest hd
      refine .inr (.inr ⟨hne, i, rest, ?_⟩)
      obtain ⟨u, hu, -⟩ := exec_next i s
      rw [hu] at h
      simp only [finishStep] at h
      refine ⟨u, hd, hu, ?_⟩
      split at h
      · rename_i hrun
        cases h
        exact .inr ⟨hrun, rfl⟩
      · rename_i r hrun
        cases h
        exact .inl ⟨r, hrun, rfl⟩

end Sys2Proof.Machine
end

