-- ==== Sys2Proof/Laws/PerInstr.lean ====
section
/-! SUPPORT. What is proved of every instruction as syntax, one lemma per constructor: the encoder writes as many bytes as
R100's length says. -/

namespace Sys2Proof.Laws.EncodedLength

/-- R100: the encoding of an instruction is `len` bytes long. -/
def Statement (i : Instr) : Prop := (encode i).length = i.len

theorem movRmReg (d : Dir) (w : Width) (reg : RegOp) (rm : RmOperand) : Statement (.movRmReg d w reg rm) := by
  simp only [Statement, encode, List.length_cons, encodeModRegRm_length, Instr.len]
  omega

theorem movImmRm (w : Width) (rm : RmOperand) (imm : Word) : Statement (.movImmRm w rm imm) := by
  simp only [Statement, encode, List.length_cons, List.length_append, encodeModRegRm_length, immBytes_length, Instr.len]
  omega

theorem movImmReg (w : Width) (reg : RegOp) (imm : Word) : Statement (.movImmReg w reg imm) := by
  simp only [Statement, encode, List.length_cons, immBytes_length, Instr.len]
  omega

theorem addRmReg (d : Dir) (w : Width) (reg : RegOp) (rm : RmOperand) : Statement (.addRmReg d w reg rm) := by
  simp only [Statement, encode, List.length_cons, encodeModRegRm_length, Instr.len]
  omega

theorem addImmRm (s : Bool) (w : Width) (rm : RmOperand) (imm : Word) : Statement (.addImmRm s w rm imm) := by
  simp only [Statement, encode, List.length_cons, List.length_append, encodeModRegRm_length, immBytes_length, Instr.len]
  omega

theorem addImmAcc (w : Width) (imm : Word) : Statement (.addImmAcc w imm) := by
  simp only [Statement, encode, List.length_cons, immBytes_length, Instr.len]
  omega

theorem subRmReg (d : Dir) (w : Width) (reg : RegOp) (rm : RmOperand) : Statement (.subRmReg d w reg rm) := by
  simp only [Statement, encode, List.length_cons, encodeModRegRm_length, Instr.len]
  omega

theorem subImmRm (s : Bool) (w : Width) (rm : RmOperand) (imm : Word) : Statement (.subImmRm s w rm imm) := by
  simp only [Statement, encode, List.length_cons, List.length_append, encodeModRegRm_length, immBytes_length, Instr.len]
  omega

theorem subImmAcc (w : Width) (imm : Word) : Statement (.subImmAcc w imm) := by
  simp only [Statement, encode, List.length_cons, immBytes_length, Instr.len]
  omega

theorem cmpRmReg (d : Dir) (w : Width) (reg : RegOp) (rm : RmOperand) : Statement (.cmpRmReg d w reg rm) := by
  simp only [Statement, encode, List.length_cons, encodeModRegRm_length, Instr.len]
  omega

theorem cmpImmRm (s : Bool) (w : Width) (rm : RmOperand) (imm : Word) : Statement (.cmpImmRm s w rm imm) := by
  simp only [Statement, encode, List.length_cons, List.length_append, encodeModRegRm_length, immBytes_length, Instr.len]
  omega

theorem cmpImmAcc (w : Width) (imm : Word) : Statement (.cmpImmAcc w imm) := by
  simp only [Statement, encode, List.length_cons, immBytes_length, Instr.len]
  omega

theorem jo (disp8 : Byte) : Statement (.jo disp8) := rfl

theorem jno (disp8 : Byte) : Statement (.jno disp8) := rfl

theorem jb (disp8 : Byte) : Statement (.jb disp8) := rfl

theorem jnb (disp8 : Byte) : Statement (.jnb disp8) := rfl

theorem je (disp8 : Byte) : Statement (.je disp8) := rfl

theorem jne (disp8 : Byte) : Statement (.jne disp8) := rfl

theorem jbe (disp8 : Byte) : Statement (.jbe disp8) := rfl

theorem ja (disp8 : Byte) : Statement (.ja disp8) := rfl

theorem js (disp8 : Byte) : Statement (.js disp8) := rfl

theorem jns (disp8 : Byte) : Statement (.jns disp8) := rfl

theorem jp (disp8 : Byte) : Statement (.jp disp8) := rfl

theorem jnp (disp8 : Byte) : Statement (.jnp disp8) := rfl

theorem jl (disp8 : Byte) : Statement (.jl disp8) := rfl

theorem jnl (disp8 : Byte) : Statement (.jnl disp8) := rfl

theorem jle (disp8 : Byte) : Statement (.jle disp8) := rfl

theorem jg (disp8 : Byte) : Statement (.jg disp8) := rfl

theorem loopnz (disp8 : Byte) : Statement (.loopnz disp8) := rfl

theorem loopz (disp8 : Byte) : Statement (.loopz disp8) := rfl

theorem loop (disp8 : Byte) : Statement (.loop disp8) := rfl

theorem jcxz (disp8 : Byte) : Statement (.jcxz disp8) := rfl

end Sys2Proof.Laws.EncodedLength

namespace Sys2Proof

/-- R100: the encoding of an instruction is `len` bytes long. -/
theorem encode_length (i : Instr) : (encode i).length = i.len := by
  cases i with
  | movRmReg d w reg rm => exact Laws.EncodedLength.movRmReg d w reg rm
  | movImmRm w rm imm => exact Laws.EncodedLength.movImmRm w rm imm
  | movImmReg w reg imm => exact Laws.EncodedLength.movImmReg w reg imm
  | addRmReg d w reg rm => exact Laws.EncodedLength.addRmReg d w reg rm
  | addImmRm s w rm imm => exact Laws.EncodedLength.addImmRm s w rm imm
  | addImmAcc w imm => exact Laws.EncodedLength.addImmAcc w imm
  | subRmReg d w reg rm => exact Laws.EncodedLength.subRmReg d w reg rm
  | subImmRm s w rm imm => exact Laws.EncodedLength.subImmRm s w rm imm
  | subImmAcc w imm => exact Laws.EncodedLength.subImmAcc w imm
  | cmpRmReg d w reg rm => exact Laws.EncodedLength.cmpRmReg d w reg rm
  | cmpImmRm s w rm imm => exact Laws.EncodedLength.cmpImmRm s w rm imm
  | cmpImmAcc w imm => exact Laws.EncodedLength.cmpImmAcc w imm
  | jo disp8 => exact Laws.EncodedLength.jo disp8
  | jno disp8 => exact Laws.EncodedLength.jno disp8
  | jb disp8 => exact Laws.EncodedLength.jb disp8
  | jnb disp8 => exact Laws.EncodedLength.jnb disp8
  | je disp8 => exact Laws.EncodedLength.je disp8
  | jne disp8 => exact Laws.EncodedLength.jne disp8
  | jbe disp8 => exact Laws.EncodedLength.jbe disp8
  | ja disp8 => exact Laws.EncodedLength.ja disp8
  | js disp8 => exact Laws.EncodedLength.js disp8
  | jns disp8 => exact Laws.EncodedLength.jns disp8
  | jp disp8 => exact Laws.EncodedLength.jp disp8
  | jnp disp8 => exact Laws.EncodedLength.jnp disp8
  | jl disp8 => exact Laws.EncodedLength.jl disp8
  | jnl disp8 => exact Laws.EncodedLength.jnl disp8
  | jle disp8 => exact Laws.EncodedLength.jle disp8
  | jg disp8 => exact Laws.EncodedLength.jg disp8
  | loopnz disp8 => exact Laws.EncodedLength.loopnz disp8
  | loopz disp8 => exact Laws.EncodedLength.loopz disp8
  | loop disp8 => exact Laws.EncodedLength.loop disp8
  | jcxz disp8 => exact Laws.EncodedLength.jcxz disp8

end Sys2Proof
end

