-- ==== Sys2Proof/Tests/Slice0.lean ====
section
/-! SUPPORT. Tests of the model on fixed values. Expected values come from the spec: 95_test_vectors.md (its tables are
named V-DEC, V-EA, V-ALU, V-MOV, V-BR, V-LOOP, V-FLT, V-TRC, its worked examples E1 to E11), R106 and the examples of the
instruction rules. After them, for every statement with hypotheses, a named witness that meets them. -/

namespace Sys2Proof.Tests

open Sys2Proof Sys2Proof.Machine

/-! ### Helpers -/

/-- What `f` sees in the state after one step. -/
def after {α : Type} (s : State) (f : State → α) : Option α :=
  match step s with
  | .next t => some (f t)
  | .fault _ | .refused _ => none

/-- What `f` sees in the state after one instruction, run without a fetch. -/
def ran {α : Type} (i : Instr) (s : State) (f : State → α) : Option α :=
  match exec i s with
  | .next t => some (f t)
  | .fault _ | .refused _ => none

/-- The start of a launch with R6's default parameters. -/
def given (code : List Byte) : State := State.start Config.default code []

/-- `BRANCH_EVAL = extended`, every other parameter at its default. -/
def extended : Config := { Config.default with branchEval := .extended }

/-- `BYTE_ARITH = wide16`. -/
def wide : Config := { Config.default with byteArith := .wide16 }

/-- `BYTE_STORE = byte`. -/
def oneByte : Config := { Config.default with byteStore := .byte }

/-- The same state under other parameters. -/
def under (c : Config) (s : State) : State := { s with config := c }

/-- The same state with a register set. -/
def put (r : Reg) (v : Word) (s : State) : State := s.setReg r v

/-- The same state with the flags set. -/
def flags (z n : Bool) (s : State) : State := s.setFlags z n

/-- The same state with a memory. -/
def mem (m : Memory) (s : State) : State := { s with mem := m }

/-- A stream of length `L` that holds `bs` at offset `k`, and `ip = k`. -/
def atOffset (k L : Nat) (bs : List Byte) : State :=
  { given (List.replicate k 0#8 ++ bs ++ List.replicate (L - k - bs.length) 0#8) with ip := k }

/-! ### Decoding: one word of every constructor, written bit by bit from the encodings of R71 to R77, R93, R95, R96 -/

/-- R71, R72: `100010 d w`, d = 0, w = 1, mod 11, reg 011 (BX), rm 001 (CX). -/
theorem test_decode_movRmReg :
    decode [0b10001001#8, 0b11011001#8] =
      .ok (.movRmReg .toRm .word ⟨.bx, .word⟩ (.reg ⟨.cx, .word⟩), []) := by decide

/-- d = 1, w = 0, mod 01, reg 100 (AH), rm 110 (BP), one displacement byte. -/
theorem test_decode_movRmReg_memory :
    decode [0b10001010#8, 0b01100110#8, 0b11111110#8] =
      .ok (.movRmReg .toReg .byte ⟨.ax, .hi⟩ (.mem (.disp8 .bp 0xFE#8)), []) := by decide

/-- `1100011 w`, mod 10, rm 110, displacement and data low byte first (R90). -/
theorem test_decode_movImmRm :
    decode [0b11000111#8, 0b10000110#8, 0b00010000#8, 0b00000000#8, 0b00110100#8, 0b00010010#8] =
      .ok (.movImmRm .word (.mem (.disp16 .bp 0x0010#16)) 0x1234#16, []) := by decide

/-- mod 00 and rm 110 is a direct address (R80). -/
theorem test_decode_movImmRm_direct :
    decode [0b11000110#8, 0b00000110#8, 0b00000000#8, 0b00000010#8, 0b11111111#8] =
      .ok (.movImmRm .byte (.mem (.direct 0x0200#16)) 0x00FF#16, []) := by decide

/-- `1011 w rrr`, w = 1, rrr 001 (CX). -/
theorem test_decode_movImmReg :
    decode [0b10111001#8, 0b00001100#8, 0b00000000#8] =
      .ok (.movImmReg .word ⟨.cx, .word⟩ 0x000C#16, []) := by decide

/-- `00 ooo 0 d w` with ooo 000. -/
theorem test_decode_addRmReg :
    decode [0b00000000#8, 0b11100000#8] = .ok (.addRmReg .toRm .byte ⟨.ax, .hi⟩ (.reg ⟨.ax, .lo⟩), []) := by decide

/-- ooo 101, d = 1, w = 0. -/
theorem test_decode_subRmReg :
    decode [0b00101010#8, 0b00100110#8, 0b00000000#8, 0b00000011#8] =
      .ok (.subRmReg .toReg .byte ⟨.ax, .hi⟩ (.mem (.direct 0x0300#16)), []) := by decide

/-- ooo 111. -/
theorem test_decode_cmpRmReg :
    decode [0b00111001#8, 0b11001000#8] =
      .ok (.cmpRmReg .toRm .word ⟨.cx, .word⟩ (.reg ⟨.ax, .word⟩), []) := by decide

/-- `100000 s w`, s = 1, w = 1: the data byte is sign-extended (R88). -/
theorem test_decode_addImmRm :
    decode [0b10000011#8, 0b01000110#8, 0b11111110#8, 0b10000000#8] =
      .ok (.addImmRm true .word (.mem (.disp8 .bp 0xFE#8)) 0xFF80#16, []) := by decide

/-- s = 0, w = 1: two data bytes. -/
theorem test_decode_subImmRm :
    decode [0b10000001#8, 0b11101001#8, 0b00000000#8, 0b00000001#8] =
      .ok (.subImmRm false .word (.reg ⟨.cx, .word⟩) 0x0100#16, []) := by decide

/-- s = 1, w = 0: the data byte is zero-extended (R87). -/
theorem test_decode_cmpImmRm :
    decode [0b10000010#8, 0b00111000#8, 0b10000101#8] =
      .ok (.cmpImmRm true .byte (.mem (.plain .bxSi)) 0x0085#16, []) := by decide

/-- `00 ooo 10 w`. -/
theorem test_decode_addImmAcc :
    decode [0b00000101#8, 0b11101000#8, 0b00000011#8] = .ok (.addImmAcc .word 0x03E8#16, []) := by decide

theorem test_decode_subImmAcc : decode [0b00101100#8, 0b00000001#8] = .ok (.subImmAcc .byte 0x0001#16, []) := by decide

theorem test_decode_cmpImmAcc : decode [0b00111100#8, 0b00001001#8] = .ok (.cmpImmAcc .byte 0x0009#16, []) := by decide

/-- `0111 cccc` (R95). -/
theorem test_decode_jo : decode [0b01110000#8, 0b10000000#8] = .ok (.jo 0x80#8, []) := by decide

theorem test_decode_jno : decode [0b01110001#8, 0b10000000#8] = .ok (.jno 0x80#8, []) := by decide

theorem test_decode_jb : decode [0b01110010#8, 0b10000000#8] = .ok (.jb 0x80#8, []) := by decide

theorem test_decode_jnb : decode [0b01110011#8, 0b10000000#8] = .ok (.jnb 0x80#8, []) := by decide

theorem test_decode_je : decode [0b01110100#8, 0b10000000#8] = .ok (.je 0x80#8, []) := by decide

theorem test_decode_jne : decode [0b01110101#8, 0b10000000#8] = .ok (.jne 0x80#8, []) := by decide

theorem test_decode_jbe : decode [0b01110110#8, 0b10000000#8] = .ok (.jbe 0x80#8, []) := by decide

theorem test_decode_ja : decode [0b01110111#8, 0b10000000#8] = .ok (.ja 0x80#8, []) := by decide

theorem test_decode_js : decode [0b01111000#8, 0b10000000#8] = .ok (.js 0x80#8, []) := by decide

theorem test_decode_jns : decode [0b01111001#8, 0b10000000#8] = .ok (.jns 0x80#8, []) := by decide

theorem test_decode_jp : decode [0b01111010#8, 0b10000000#8] = .ok (.jp 0x80#8, []) := by decide

theorem test_decode_jnp : decode [0b01111011#8, 0b10000000#8] = .ok (.jnp 0x80#8, []) := by decide

theorem test_decode_jl : decode [0b01111100#8, 0b10000000#8] = .ok (.jl 0x80#8, []) := by decide

theorem test_decode_jnl : decode [0b01111101#8, 0b10000000#8] = .ok (.jnl 0x80#8, []) := by decide

theorem test_decode_jle : decode [0b01111110#8, 0b10000000#8] = .ok (.jle 0x80#8, []) := by decide

theorem test_decode_jg : decode [0b01111111#8, 0b10000000#8] = .ok (.jg 0x80#8, []) := by decide

/-- `111000 kk` (R96). -/
theorem test_decode_loopnz : decode [0b11100000#8, 0b11111100#8] = .ok (.loopnz 0xFC#8, []) := by decide

theorem test_decode_loopz : decode [0b11100001#8, 0b11111100#8] = .ok (.loopz 0xFC#8, []) := by decide

theorem test_decode_loop : decode [0b11100010#8, 0b11111100#8] = .ok (.loop 0xFC#8, []) := by decide

theorem test_decode_jcxz : decode [0b11100011#8, 0b11111100#8] = .ok (.jcxz 0xFC#8, []) := by decide

/-- R106 and V-DEC: bytes that decode to no instruction. -/
theorem test_decode_faults :
    decode [0x80#8, 0xF0#8] = .error .unsupportedOpcode ∧ decode [0x06#8] = .error .unsupportedOpcode ∧
    decode [0x3E#8, 0x8B#8, 0x07#8] = .error .unsupportedOpcode ∧ decode [0xA1#8, 0x00#8, 0x10#8] = .error .unsupportedOpcode ∧
    decode [0x8C#8, 0xD8#8] = .error .unsupportedOpcode ∧ decode [0x81#8, 0xC0#8] = .error .truncatedStream ∧
    decode [0x80#8, 0xF8#8] = .error .truncatedStream ∧
    decode [0xC7#8, 0x86#8, 0x10#8, 0x00#8, 0x34#8] = .error .truncatedStream ∧
    decode [0xC6#8, 0x06#8, 0x00#8, 0x02#8] = .error .truncatedStream := by decide

/-- R92: no byte is selected by two rows of the classification table, so the order of the rows does not matter. -/
theorem test_rows_disjoint : ∀ b0 : Byte, (opTable.filter fun r => r.selects b0).length ≤ 1 := by decide

/-- R102: the fields the decoder reports. -/
theorem test_decoded_fields :
    (Instr.cmpImmRm true .byte (.mem (.plain .bxSi)) 0x0085#16).decoded 7 =
      { op := .arith .cmp, format := .immRm, width := some .byte, dst := some (.mem ⟨.regs .bxSi, 0#16⟩),
        src := some (.imm 0x0085#16), disp8 := none, len := 3, next := 10 } := by decide

/-- The opcode table's own rows: the number of a row, its free bits 0, decodes to the row's instruction. -/
theorem test_table_words :
    (decodeTableWord 8 0x88).map Instr.op = some .mov ∧ (decodeTableWord 16 0xC600).map Instr.op = some .mov ∧
    (decodeTableWord 8 0xB0).map Instr.op = some .mov ∧ (decodeTableWord 16 0x8028).map Instr.op = some (.arith .sub) ∧
    (decodeTableWord 8 0x3C).map Instr.op = some (.arith .cmp) ∧
    (decodeTableWord 8 0x75).map Instr.op = some (.branch .jne) ∧
    (decodeTableWord 8 0xE3).map Instr.op = some (.branch .jcxz) := by decide

/-- E10: `mov cx, bx` has two encodings, and each instruction keeps its own. -/
theorem test_encode_back :
    encode (.movRmReg .toRm .word ⟨.bx, .word⟩ (.reg ⟨.cx, .word⟩)) = [0x89#8, 0xD9#8] ∧
    encode (.movRmReg .toReg .word ⟨.cx, .word⟩ (.reg ⟨.bx, .word⟩)) = [0x8B#8, 0xCB#8] ∧
    decode [0x88#8, 0xE5#8] = .ok (.movRmReg .toRm .byte ⟨.ax, .hi⟩ (.reg ⟨.cx, .hi⟩), []) := by decide

/-! ### WellFormed: each check refuses a term -/

/-- R21: SP has no byte half. -/
theorem test_wf_no_half : RegOp.wf .byte ⟨.sp, .lo⟩ = false ∧ RegOp.wf .byte ⟨.di, .hi⟩ = false := by decide

/-- R22: the slice and the width differ. -/
theorem test_wf_slice_width : RegOp.wf .word ⟨.ax, .lo⟩ = false ∧ RegOp.wf .byte ⟨.ax, .word⟩ = false := by decide

/-- R80: BP alone cannot be written with mod 00. -/
theorem test_wf_plain_bp : MemForm.wf (.plain .bp) = false := by decide

/-- R78: the rm register must fit the width bit. -/
theorem test_wf_rm : RmOperand.wf .byte (.reg ⟨.cx, .word⟩) = false ∧ RmOperand.wf .word (.mem (.plain .bp)) = false := by decide

/-- R87, R88: an immediate its data bytes cannot give. -/
theorem test_wf_imm :
    immFits false .byte 0x0100#16 = false ∧ immFits true .byte 0xFF80#16 = false ∧ immFits true .word 0x0080#16 = false := by decide

/-- The checks of the whole instruction reach each of its operands. -/
theorem test_wf_instr :
    (Instr.movRmReg .toRm .word ⟨.ax, .lo⟩ (.mem (.plain .bx))).wf = false ∧
    (Instr.addRmReg .toReg .byte ⟨.ax, .lo⟩ (.mem (.plain .bp))).wf = false ∧
    (Instr.subRmReg .toRm .byte ⟨.si, .hi⟩ (.reg ⟨.ax, .lo⟩)).wf = false ∧
    (Instr.cmpRmReg .toRm .word ⟨.ax, .word⟩ (.reg ⟨.ax, .hi⟩)).wf = false ∧
    (Instr.movImmRm .byte (.mem (.plain .bx)) 0x0100#16).wf = false ∧
    (Instr.movImmReg .byte ⟨.cx, .lo⟩ 0xFFFF#16).wf = false ∧
    (Instr.addImmRm true .word (.mem (.plain .bx)) 0x0080#16).wf = false ∧
    (Instr.subImmRm false .byte (.mem (.plain .bx)) 0x0180#16).wf = false ∧
    (Instr.cmpImmRm true .word (.reg ⟨.bp, .lo⟩) 0x0000#16).wf = false ∧
    (Instr.addImmAcc .byte 0x0100#16).wf = false ∧ (Instr.subImmAcc .byte 0x8000#16).wf = false ∧
    (Instr.cmpImmAcc .byte 0xFFFF#16).wf = false := by decide

/-! ### One step of each instruction -/

/-- V-MOV `89 D9`: the flags stay. -/
theorem test_mov_cx_bx :
    after (flags true true (put .bx 0x1234#16 (given [0x89#8, 0xD9#8])))
      (fun t => (t.reg .cx, t.reg .bx, t.zf, t.sf, t.ip)) = some (0x1234#16, 0x1234#16, true, true, 2) := by decide

/-- V-MOV `88 C4`: the source is read before the other half is written. -/
theorem test_mov_ah_al :
    after (put .ax 0x0034#16 (given [0x88#8, 0xC4#8]))
      (fun t => (t.reg .ax, t.ip)) = some (0x3434#16, 2) := by decide

/-- V-MOV `C6 07 07` under `word`: the byte after it is cleared. -/
theorem test_mov_byte_immediate_word_store :
    after (mem [(0x201, 0x22#8)] (put .bx 0x0200#16 (given [0xC6#8, 0x07#8, 0x07#8])))
      (fun t => (t.mem, t.ip)) = some ([(0x200, 0x07#8)], 3) := by decide

/-- V-MOV `C7 06 FF FF 34 12`: the high byte goes to address 0. -/
theorem test_mov_wraps_memory :
    after (given [0xC7#8, 0x06#8, 0xFF#8, 0xFF#8, 0x34#8, 0x12#8])
      (fun t => (t.mem, t.ip)) = some ([(0, 0x12#8), (0xFFFF, 0x34#8)], 6) := by decide

/-- V-MOV `B4 AB`, E2. -/
theorem test_mov_ah_171 :
    after (put .ax 0x12FF#16 (given [0xB4#8, 0xAB#8]))
      (fun t => (t.reg .ax, t.ip)) = some (0xABFF#16, 2) := by decide

/-- V-MOV `BC 00 F0`. -/
theorem test_mov_sp :
    after (given [0xBC#8, 0x00#8, 0xF0#8])
      (fun t => (t.reg .sp, t.ip)) = some (0xF000#16, 3) := by decide

/-- V-ALU `00 E0`: AH is kept. -/
theorem test_add_al_ah :
    after (put .ax 0x1020#16 (given [0x00#8, 0xE0#8]))
      (fun t => (t.reg .ax, t.zf, t.sf)) = some (0x1030#16, false, false) := by decide

/-- V-ALU `03 1F`: the address uses the old BX. -/
theorem test_add_bx_bx :
    after (mem [(0x200, 0x05#8)] (put .bx 0x0200#16 (given [0x03#8, 0x1F#8])))
      (fun t => (t.reg .bx)) = some (0x0205#16) := by decide

/-- V-ALU `29 C0`. -/
theorem test_sub_ax_ax :
    after (flags false true (put .ax 0x1234#16 (given [0x29#8, 0xC0#8])))
      (fun t => (t.reg .ax, t.zf, t.sf)) = some (0x0000#16, true, false) := by decide

/-- V-ALU `2A 26 00 03`. -/
theorem test_sub_ah_memory :
    after (mem [(0x300, 0x02#8)] (put .ax 0x0100#16 (given [0x2A#8, 0x26#8, 0x00#8, 0x03#8])))
      (fun t => (t.reg .ax, t.zf, t.sf)) = some (0xFF00#16, false, true) := by decide

/-- R182 `39 C8`. -/
theorem test_cmp_ax_cx :
    after (put .cx 0x0001#16 (given [0x39#8, 0xC8#8]))
      (fun t => (t.reg .ax, t.reg .cx, t.zf, t.sf)) = some (0x0000#16, 0x0001#16, false, true) := by decide

/-- V-ALU `3B 0E 00 03`. -/
theorem test_cmp_cx_memory :
    after (mem [(0x300, 0x02#8)] (put .cx 0x0002#16 (given [0x3B#8, 0x0E#8, 0x00#8, 0x03#8])))
      (fun t => (t.reg .cx, t.zf, t.sf)) = some (0x0002#16, true, false) := by decide

/-- V-ALU `83 C0 FF`. -/
theorem test_add_ax_sign_extended :
    after (put .ax 0x0001#16 (given [0x83#8, 0xC0#8, 0xFF#8]))
      (fun t => (t.reg .ax, t.zf, t.sf, t.ip)) = some (0x0000#16, true, false, 3) := by decide

/-- V-ALU `80 C4 80` under `wide16`. -/
theorem test_add_ah_wide :
    after (under wide (put .ax 0x8000#16 (given [0x80#8, 0xC4#8, 0x80#8])))
      (fun t => (t.reg .ax, t.zf, t.sf)) = some (0x0000#16, false, false) := by decide

/-- V-ALU `81 E9 00 01`. -/
theorem test_sub_cx_256 :
    after (put .cx 0x0100#16 (given [0x81#8, 0xE9#8, 0x00#8, 0x01#8]))
      (fun t => (t.reg .cx, t.zf, t.sf, t.ip)) = some (0x0000#16, true, false, 4) := by decide

/-- R184 `83 E9 01`. -/
theorem test_sub_cx_1 :
    after (put .cx 0x0001#16 (given [0x83#8, 0xE9#8, 0x01#8]))
      (fun t => (t.reg .cx, t.zf, t.sf)) = some (0x0000#16, true, false) := by decide

/-- V-ALU `83 FB 80`. -/
theorem test_cmp_bx_sign_extended :
    after (put .bx 0xFF80#16 (given [0x83#8, 0xFB#8, 0x80#8]))
      (fun t => (t.reg .bx, t.zf, t.sf)) = some (0xFF80#16, true, false) := by decide

/-- R185 `81 FB 00 80`. -/
theorem test_cmp_bx_32768 :
    after (put .bx 0x8000#16 (given [0x81#8, 0xFB#8, 0x00#8, 0x80#8]))
      (fun t => (t.reg .bx, t.zf, t.sf)) = some (0x8000#16, true, false) := by decide

/-- V-ALU `04 01`: the carry does not reach AH. -/
theorem test_add_al_native :
    after (put .ax 0x12FF#16 (given [0x04#8, 0x01#8]))
      (fun t => (t.reg .ax, t.zf, t.sf)) = some (0x1200#16, true, false) := by decide

/-- The same under `wide16`. -/
theorem test_add_al_wide :
    after (under wide (put .ax 0x12FF#16 (given [0x04#8, 0x01#8])))
      (fun t => (t.reg .ax, t.zf, t.sf)) = some (0x1200#16, false, false) := by decide

/-- V-ALU `2C 01`. -/
theorem test_sub_al_1 :
    after (given [0x2C#8, 0x01#8])
      (fun t => (t.reg .ax, t.zf, t.sf)) = some (0x00FF#16, false, true) := by decide

/-- E4 `2D 01 00`. -/
theorem test_sub_ax_1 :
    after (given [0x2D#8, 0x01#8, 0x00#8])
      (fun t => (t.reg .ax, t.zf, t.sf)) = some (0xFFFF#16, false, true) := by decide

/-- R188 `3C 09`. -/
theorem test_cmp_al_9 :
    after (put .ax 0x0009#16 (given [0x3C#8, 0x09#8]))
      (fun t => (t.reg .ax, t.zf, t.sf)) = some (0x0009#16, true, false) := by decide

/-- V-ALU `3D 00 80`. -/
theorem test_cmp_ax_32768 :
    after (put .ax 0x8000#16 (given [0x3D#8, 0x00#8, 0x80#8]))
      (fun t => (t.reg .ax, t.zf, t.sf)) = some (0x8000#16, true, false) := by decide

/-! V-BR: `7x 04` at ip = 0, L = 16, with ZF and SF as (0, 0), (1, 0) and (0, 1). -/

/-- The three answers of V-BR's row: `ip`, and RUN. -/
def jumpRow (op : Byte) (c : Config) : List (Option (Nat × Run)) :=
  [(false, false), (true, false), (false, true)].map fun zs =>
    after (under c (flags zs.1 zs.2 (atOffset 0 16 [op, 0x04#8]))) fun t => (t.ip, t.run)

/-- A row of V-BR without a fault. -/
def goes (a b c : Nat) : List (Option (Nat × Run)) := [some (a, .running), some (b, .running), some (c, .running)]

/-- V-BR's "UC" in all three columns. -/
def stops : List (Option (Nat × Run)) := List.replicate 3 (some (0, .halted .unimplementedCondition))

theorem test_jo : jumpRow 0x70#8 Config.default = goes 2 2 2 ∧ jumpRow 0x70#8 extended = stops := by decide

theorem test_jno : jumpRow 0x71#8 Config.default = goes 2 2 2 ∧ jumpRow 0x71#8 extended = stops := by decide

theorem test_jb : jumpRow 0x72#8 Config.default = goes 2 2 2 ∧ jumpRow 0x72#8 extended = stops := by decide

theorem test_jnb : jumpRow 0x73#8 Config.default = goes 2 2 2 ∧ jumpRow 0x73#8 extended = stops := by decide

theorem test_je : jumpRow 0x74#8 Config.default = goes 2 2 2 ∧ jumpRow 0x74#8 extended = goes 2 6 2 := by decide

theorem test_jne : jumpRow 0x75#8 Config.default = goes 6 2 6 ∧ jumpRow 0x75#8 extended = goes 6 2 6 := by decide

theorem test_jbe : jumpRow 0x76#8 Config.default = goes 2 2 2 ∧ jumpRow 0x76#8 extended = stops := by decide

theorem test_ja : jumpRow 0x77#8 Config.default = goes 2 2 2 ∧ jumpRow 0x77#8 extended = stops := by decide

theorem test_js : jumpRow 0x78#8 Config.default = goes 2 2 2 ∧ jumpRow 0x78#8 extended = goes 2 2 6 := by decide

theorem test_jns : jumpRow 0x79#8 Config.default = goes 2 2 2 ∧ jumpRow 0x79#8 extended = goes 6 6 2 := by decide

theorem test_jp : jumpRow 0x7A#8 Config.default = goes 2 2 2 ∧ jumpRow 0x7A#8 extended = stops := by decide

theorem test_jnp : jumpRow 0x7B#8 Config.default = goes 2 2 2 ∧ jumpRow 0x7B#8 extended = stops := by decide

theorem test_jl : jumpRow 0x7C#8 Config.default = goes 2 2 2 ∧ jumpRow 0x7C#8 extended = stops := by decide

theorem test_jnl : jumpRow 0x7D#8 Config.default = goes 2 2 2 ∧ jumpRow 0x7D#8 extended = stops := by decide

theorem test_jle : jumpRow 0x7E#8 Config.default = goes 2 2 2 ∧ jumpRow 0x7E#8 extended = stops := by decide

theorem test_jg : jumpRow 0x7F#8 Config.default = goes 2 2 2 ∧ jumpRow 0x7F#8 extended = stops := by decide

/-! V-LOOP: `Ex FC` at ip = 6, L = 16. -/

/-- V-LOOP's cell: CX and `ip`. -/
def loopCell (op : Byte) (c : Config) (cx : Word) (z : Bool) : Option (Word × Nat) :=
  after (under c (flags z false (put .cx cx (atOffset 6 16 [op, 0xFC#8])))) fun t => (t.reg .cx, t.ip)

theorem test_loop :
    loopCell 0xE2#8 Config.default 0x0003#16 false = some (0x0003#16, 8) ∧
    loopCell 0xE2#8 extended 0x0003#16 false = some (0x0002#16, 4) ∧
    loopCell 0xE2#8 Config.default 0x0001#16 true = some (0x0001#16, 8) ∧
    loopCell 0xE2#8 extended 0x0001#16 true = some (0x0000#16, 8) ∧
    loopCell 0xE2#8 Config.default 0x0000#16 false = some (0x0000#16, 8) ∧
    loopCell 0xE2#8 extended 0x0000#16 false = some (0xFFFF#16, 4) := by decide

theorem test_loopz :
    loopCell 0xE1#8 Config.default 0x0003#16 true = some (0x0003#16, 8) ∧
    loopCell 0xE1#8 extended 0x0003#16 true = some (0x0002#16, 4) ∧
    loopCell 0xE1#8 Config.default 0x0003#16 false = some (0x0003#16, 8) ∧
    loopCell 0xE1#8 extended 0x0003#16 false = some (0x0002#16, 8) ∧
    loopCell 0xE1#8 Config.default 0x0001#16 true = some (0x0001#16, 8) ∧
    loopCell 0xE1#8 extended 0x0001#16 true = some (0x0000#16, 8) := by decide

theorem test_loopnz :
    loopCell 0xE0#8 Config.default 0x0003#16 false = some (0x0003#16, 8) ∧
    loopCell 0xE0#8 extended 0x0003#16 false = some (0x0002#16, 4) ∧
    loopCell 0xE0#8 Config.default 0x0003#16 true = some (0x0003#16, 8) ∧
    loopCell 0xE0#8 extended 0x0003#16 true = some (0x0002#16, 8) ∧
    loopCell 0xE0#8 Config.default 0x0001#16 false = some (0x0001#16, 8) ∧
    loopCell 0xE0#8 extended 0x0001#16 false = some (0x0000#16, 8) := by decide

theorem test_jcxz :
    loopCell 0xE3#8 Config.default 0x0000#16 false = some (0x0000#16, 8) ∧
    loopCell 0xE3#8 extended 0x0000#16 false = some (0x0000#16, 4) ∧
    loopCell 0xE3#8 Config.default 0x0001#16 true = some (0x0001#16, 8) ∧
    loopCell 0xE3#8 extended 0x0001#16 true = some (0x0001#16, 8) := by decide

/-! ### The memory forms (V-EA), the stores (V-MOV) and the word that wraps -/

/-- V-EA's start state. -/
def eaStart : State := put .bx 0x1000#16 (put .si 0x0020#16 (put .di 0x0300#16 (put .bp 0x4000#16 (given []))))

/-- The effective address of an rm operand read from bytes. -/
def eaOf (bs : List Byte) : Option (Word × Nat) :=
  match decode bs with
  | .ok (i, _) =>
    match i.src with
    | some (.mem m) => some (eaStart.ea m, i.len)
    | _ => none
  | .error _ => none

theorem test_ea_plain :
    [0x00#8, 0x01#8, 0x02#8, 0x03#8, 0x04#8, 0x05#8, 0x07#8].map (fun b => eaOf [0x8B#8, b]) =
      [some (0x1020#16, 2), some (0x1300#16, 2), some (0x4020#16, 2), some (0x4300#16, 2), some (0x0020#16, 2),
        some (0x0300#16, 2), some (0x1000#16, 2)] := by decide

theorem test_ea_disp8 :
    [0x40#8, 0x41#8, 0x42#8, 0x43#8, 0x44#8, 0x45#8, 0x46#8, 0x47#8].map (fun b => eaOf [0x8B#8, b, 0x80#8]) =
      [some (0x0FA0#16, 3), some (0x1280#16, 3), some (0x3FA0#16, 3), some (0x4280#16, 3), some (0xFFA0#16, 3),
        some (0x0280#16, 3), some (0x3F80#16, 3), some (0x0F80#16, 3)] := by decide

theorem test_ea_disp16 :
    [0x80#8, 0x81#8, 0x82#8, 0x83#8, 0x84#8, 0x85#8, 0x86#8, 0x87#8].map (fun b => eaOf [0x8B#8, b, 0xFF#8, 0xFF#8]) =
      [some (0x101F#16, 4), some (0x12FF#16, 4), some (0x401F#16, 4), some (0x42FF#16, 4), some (0x001F#16, 4),
        some (0x02FF#16, 4), some (0x3FFF#16, 4), some (0x0FFF#16, 4)] := by decide

theorem test_ea_direct : eaOf [0x8B#8, 0x06#8, 0x34#8, 0x12#8] = some (0x1234#16, 4) := by decide

/-- E6: BP = 0x10, DI = 0x20, displacement 4. -/
theorem test_ea_bp_di :
    (put .bp 0x0010#16 (put .di 0x0020#16 (given []))).ea ⟨.regs .bpDi, 0x0004#16⟩ = 0x0034#16 := by decide

/-- V-EA: with `MEM_SIZE = 256` a word at 0x12FF takes MEM[0xFF] and MEM[0x00]. -/
theorem test_small_memory :
    (under ⟨256, 16, .native8, .word, .reference⟩ (mem [(0x00, 0xAA#8), (0xFF, 0x55#8)] (given []))).memRead2 0x12FF#16 =
      0xAA55#16 := by decide

/-- V-MOV `88 27`: the two settings of BYTE_STORE. -/
theorem test_byte_store :
    ([Config.default, oneByte].map fun c => after (under c (mem [(0x200, 0x11#8), (0x201, 0x22#8)]
      (put .ax 0xAB00#16 (put .bx 0x0200#16 (given [0x88#8, 0x27#8]))))) fun t => t.mem) =
      [some [(0x200, 0xAB#8)], some [(0x200, 0xAB#8), (0x201, 0x22#8)]] := by decide

/-- V-ALU's byte rows, `native8` then `wide16`. -/
theorem test_alu_byte :
    ([Config.default, wide].map fun c =>
      [alu c .add .byte 0x7F#16 0x01#16, alu c .add .byte 0x80#16 0x80#16, alu c .sub .byte 0x00#16 0x01#16,
        alu c .sub .byte 0x10#16 0x20#16]) =
      [[⟨0x0080#16, false, true⟩, ⟨0x0000#16, true, false⟩, ⟨0x00FF#16, false, true⟩, ⟨0x00F0#16, false, true⟩],
        [⟨0x0080#16, false, false⟩, ⟨0x0100#16, false, false⟩, ⟨0xFFFF#16, false, true⟩, ⟨0xFFF0#16, false, true⟩]] := by
  decide

/-- R138: the four boundary examples of word arithmetic. -/
theorem test_alu_word :
    alu Config.default .add .word 0xFFFF#16 0x0001#16 = ⟨0x0000#16, true, false⟩ ∧
    alu Config.default .add .word 0x7FFF#16 0x0001#16 = ⟨0x8000#16, false, true⟩ ∧
    alu Config.default .sub .word 0x0000#16 0x0001#16 = ⟨0xFFFF#16, false, true⟩ ∧
    alu Config.default .sub .word 0x8000#16 0x0001#16 = ⟨0x7FFF#16, false, false⟩ := by decide

/-! ### Stops and their priority (V-FLT), jump targets (V-BR) -/

/-- RUN and `ip` after one step from the bytes. -/
def stopOf (bs : List Byte) : Option (Run × Nat) := after (given bs) fun t => (t.run, t.ip)

theorem test_stop_priority :
    stopOf [] = some (.halted .endOfStream, 0) ∧ stopOf [0x90#8] = some (.halted .unsupportedOpcode, 0) ∧
    stopOf [0x80#8] = some (.halted .truncatedStream, 0) ∧ stopOf [0x80#8, 0xC8#8] = some (.halted .unsupportedOpcode, 0) ∧
    stopOf [0x80#8, 0xC0#8] = some (.halted .truncatedStream, 0) ∧
    stopOf [0x01#8, 0x07#8] = some (.halted .unimplementedDestination, 0) ∧
    stopOf [0x38#8, 0x07#8] = some (.halted .unimplementedDestination, 0) ∧
    stopOf [0x83#8, 0x06#8, 0x00#8, 0x01#8, 0x05#8] = some (.halted .unimplementedDestination, 0) ∧
    stopOf [0x75#8, 0x05#8] = some (.halted .branchOutOfStream, 0) := by decide

theorem test_jump_targets :
    stopOf [0x75#8, 0x00#8] = some (.running, 2) ∧ stopOf [0x75#8, 0x01#8] = some (.halted .branchOutOfStream, 0) ∧
    stopOf [0x75#8, 0xFE#8] = some (.running, 0) ∧ stopOf [0x75#8, 0xFD#8] = some (.halted .branchOutOfStream, 0) := by decide

/-- V-BR: the smallest target `ip - 126` and the largest `ip + 129`, and a branch that is not taken and whose target is outside. -/
theorem test_jump_range :
    branchTarget (200 + 2) 0x80#8 = 74 ∧ branchTarget (10 + 2) 0x7F#8 = 139 ∧
    ran (.jne 0x10#8) (flags true false (atOffset 0 2 [])) State.ip = some 2 := by decide

/-- V-LOOP's last line: the decrement is not committed. -/
theorem test_loop_out_of_stream :
    after (under extended (put .cx 0x0005#16 (given [0xE2#8, 0x80#8]))) (fun t => (t.run, t.reg .cx, t.ip)) =
      some (.halted .branchOutOfStream, 0x0005#16, 0) := by decide

/-! ### Listing (R118 to R123) and trace (V-TRC) -/

/-- The listing line of the bytes' instruction. -/
def lineOf (bs : List Byte) : Option String :=
  match decode bs with
  | .ok (i, _) => some (listingText i)
  | .error _ => none

theorem test_listing :
    lineOf [0x8B#8, 0x8F#8, 0x04#8, 0x00#8] = some "mov cx, [bx + 4]" ∧ lineOf [0x83#8, 0xE9#8, 0xFF#8] = some "sub cx, 65535" ∧
    lineOf [0xC6#8, 0x07#8, 0x07#8] = some "mov byte [bx], 7" ∧ lineOf [0x8B#8, 0x1E#8, 0x00#8, 0x10#8] = some "mov bx, [4096]" ∧
    lineOf [0x83#8, 0x46#8, 0xFE#8, 0x80#8] = some "add word [bp - 2], 65408" ∧ lineOf [0x75#8, 0x80#8] = some "jne $-126" ∧
    lineOf [0x75#8, 0xFE#8] = some "jne $+0" := by decide

/-- The trace lines after one step. -/
def traceLines (s : State) : Option (List String) := after s fun t => t.trace.map TraceRecord.line

/-- E1, and V-TRC's `sub ax, 1`. -/
theorem test_trace :
    traceLines (mem [(0x104, 0x05#8)] (put .bx 0x0100#16 (atOffset 3 7 [0x8B#8, 0x8F#8, 0x04#8, 0x00#8]))) =
      some ["mov cx, [bx + 4] ; cx:0x0->0x5 ; ip:0x3->0x7"] ∧
    traceLines (flags true false (given [0x2D#8, 0x01#8, 0x00#8])) =
      some ["sub ax, 1 ; ax:0x0->0xffff ; flags:Z->S ; ip:0x0->0x3"] := by decide

/-- R255: after the end of an empty stream (E9). -/
theorem test_final_state :
    after (given []) State.finalState =
      some (some ⟨[(.ax, 0#16), (.bx, 0#16), (.cx, 0#16), (.dx, 0#16), (.sp, 0#16), (.bp, 0#16), (.si, 0#16), (.di, 0#16)],
        ⟨false, false⟩, [], 0, .halted .endOfStream⟩) := by decide
/-! ### Witnesses: for every statement with hypotheses, states and operands that meet all of them

A statement's clauses get a witness each, at the boundary values of its ranges. -/

/-- The longest instruction, six bytes (V-DEC). -/
def longest : Instr := .movImmRm .word (.mem (.disp16 .bp 0x0010#16)) 0x1234#16

/-- Its bytes. -/
def longestBytes : List Byte := [0xC7#8, 0x86#8, 0x10#8, 0x00#8, 0x34#8, 0x12#8]

theorem witness_EncodedInstructionDecodesBack : longest.wf = true ∧ (Instr.jo 0x00#8).wf = true := by decide

theorem witness_DecodedBytesAreTheEncoding :
    decode (longestBytes ++ [0x90#8]) = .ok (longest, [0x90#8]) ∧ decode [0x70#8, 0x00#8] = .ok (.jo 0x00#8, []) := by decide

theorem witness_LengthDependsOnOwnBytes :
    (decode (longestBytes ++ [0x90#8]) = .ok (longest, [0x90#8]) ∧ longest.len = 6) ∧
    (decode [0x70#8, 0x00#8] = .ok (.jo 0x00#8, []) ∧ (Instr.jo 0x00#8).len = 2) := by decide

/-- An unused arithmetic code in each opcode-byte form, and each boundary opcode of byte 2's `reg` check, accepted and
refused. -/
theorem witness_RegFieldSelectsTheOperation :
    (0x0B#8 &&& 0xC4#8 = 0x00#8 ∧ ArithOp.ofCode (opcodeArithCode 0x0B#8) = none) ∧
    (0x35#8 &&& 0xC6#8 = 0x04#8 ∧ ArithOp.ofCode (opcodeArithCode 0x35#8) = none) ∧
    (0x80 ≤ (0x80#8 : Byte).toNat ∧ (0x80#8 : Byte).toNat ≤ 0x83 ∧ ArithOp.ofCode (regField 0xC8#8) = none) ∧
    (0x80 ≤ (0x83#8 : Byte).toNat ∧ (0x83#8 : Byte).toNat ≤ 0x83 ∧ ArithOp.ofCode (regField 0xF8#8) = some .cmp) ∧
    ((0xC6#8 : Byte).toNat = 0xC6 ∧ regField 0xC8#8 ≠ 0b000#3) ∧ ((0xC7#8 : Byte).toNat = 0xC7 ∧ regField 0xC0#8 = 0b000#3) ∧
    (decode [0x83#8, 0xF8#8, 0x01#8] = .ok (.cmpImmRm true .word (.reg ⟨.ax, .word⟩) 0x0001#16, []) ∧
      0x80 ≤ (0x83#8 : Byte).toNat ∧ (0x83#8 : Byte).toNat ≤ 0x83) ∧
    (decode [0x29#8, 0xC0#8] = .ok (.subRmReg .toRm .word ⟨.ax, .word⟩ (.reg ⟨.ax, .word⟩), []) ∧ 0x29#8 &&& 0xC4#8 = 0x00#8) ∧
    (decode [0x3C#8, 0x09#8] = .ok (.cmpImmAcc .byte 0x0009#16, []) ∧ 0x3C#8 &&& 0xC6#8 = 0x04#8) := by
  decide

theorem witness_TruncatedEncodingFaults :
    (longest.wf = true ∧ 0 < (encode longest).length) ∧ (longest.wf = true ∧ 5 < (encode longest).length) := by decide

/-- A state about to run `sub ax, 1` as its last instruction. -/
def subState : State := given [0x2D#8, 0x01#8, 0x00#8]

/-- A state about to run `mov [bx], ax`. -/
def storeState : State := put .bx 0x0100#16 (put .ax 0xBEEF#16 (given [0x89#8, 0x07#8]))

/-- A state about to run `add [bx], ax`, which stops. -/
def addMemState : State := given [0x01#8, 0x07#8]

/-- A state about to run `75 05`, whose target lies past L. -/
def farJumpState : State := given [0x75#8, 0x05#8]

/-- A state about to run `jo $+2` under `extended`. -/
def joState : State := under extended (given [0x70#8, 0x00#8])

theorem witness_StepRunsDecodedInstruction :
    (subState.run = .running ∧ decode subState.fetch = .ok (.subImmAcc .word 0x0001#16, []) ∧
      ran (.subImmAcc .word 0x0001#16) subState State.run = some .running) ∧
    (farJumpState.run = .running ∧ decode farJumpState.fetch = .ok (.jne 0x05#8, []) ∧
      ran (.jne 0x05#8) farJumpState State.run = some (.halted .branchOutOfStream)) := by decide

theorem witness_EndOfStreamEndsTheRun :
    ((given []).run = .running ∧ (given []).ip = (given []).code.length) ∧
    (∃ t, (given []).run = .running ∧ step (given []) = .next t ∧ t.run = .halted .endOfStream) ∧
    (∃ s, State.launch oneByte [] [(5, 1#8)] = .next s) :=
  ⟨by decide, ⟨_, rfl, rfl, rfl⟩, ⟨_, rfl⟩⟩

theorem witness_DecodeFaultHalts :
    ((given [0x90#8]).run = .running ∧ (given [0x90#8]).ip ≠ (given [0x90#8]).code.length ∧
      decode (given [0x90#8]).fetch = .error .unsupportedOpcode) ∧
    ((given [0x80#8]).run = .running ∧ (given [0x80#8]).ip ≠ (given [0x80#8]).code.length ∧
      decode (given [0x80#8]).fetch = .error .truncatedStream) := by decide

theorem witness_HaltedCoreNeverSteps : ((given []).halt .endOfStream).run = .halted .endOfStream := rfl

theorem witness_FaultChangesOnlyRun :
    ∃ t, farJumpState.run = .running ∧ step farJumpState = .next t ∧ t.run ≠ .running :=
  ⟨_, rfl, rfl, by decide⟩

/-- Each reason to stop is reached from a running state. -/
theorem witness_EachStopHasItsCause :
    [given [], given [0x90#8], given [0x80#8], addMemState, joState, farJumpState].map (fun s => after s State.run) =
      [.endOfStream, .unsupportedOpcode, .truncatedStream, .unimplementedDestination, .unimplementedCondition,
        .branchOutOfStream].map (fun r => some (Run.halted r)) := by decide

theorem witness_RunningCoreAlwaysSteps : subState.run = .running := rfl

theorem witness_JumpToItselfNeverStops :
    (atOffset 10 13 [0x75#8, 0xFE#8]).run = .running ∧ (atOffset 10 13 [0x75#8, 0xFE#8]).zf = false ∧
    decode (atOffset 10 13 [0x75#8, 0xFE#8]).fetch = .ok (.jne 0xFE#8, [0x00#8]) := by decide

/-- The step that ends at `ip = L`, and one from a state with memory. -/
theorem witness_StepKeepsInvariant :
    (∃ t, subState.inv ∧ step subState = .next t ∧ t.ip = t.code.length) ∧
    (∃ t, storeState.inv ∧ step storeState = .next t ∧ t.mem = [(0x100, 0xEF#8), (0x101, 0xBE#8)]) :=
  ⟨⟨_, by decide, rfl, rfl⟩, ⟨_, by decide, rfl, by decide⟩⟩

theorem witness_LaunchGivesResetValues : ∃ s, State.launch oneByte [0x90#8] [(5, 1#8)] = .next s := ⟨_, rfl⟩

/-- With inputs of every kind, and with MEM_SIZE at each end of its range. -/
theorem witness_LaunchHoldsItsInputs :
    (∃ s, State.launch oneByte [0x90#8] [(5, 1#8)] = .next s) ∧
    (∃ s, State.launch ⟨1, 16, .native8, .word, .reference⟩ [] [(0, 1#8)] = .next s) ∧
    (∃ s, State.launch Config.default [] [(65535, 1#8)] = .next s) := ⟨⟨_, rfl⟩, ⟨_, rfl⟩, ⟨_, rfl⟩⟩

/-- MEM_SIZE just outside its range on both sides; a stream one byte longer than IP_BITS allows, and one of the longest
length; MEM_INIT in and out of form. -/
theorem witness_LaunchRefusesIllegalInputs :
    ¬ (1 ≤ (⟨0, 16, .native8, .word, .reference⟩ : Config).memSize ∧
        (⟨0, 16, .native8, .word, .reference⟩ : Config).memSize ≤ 65536) ∧
    ¬ (1 ≤ (⟨65537, 16, .native8, .word, .reference⟩ : Config).memSize ∧
        (⟨65537, 16, .native8, .word, .reference⟩ : Config).memSize ≤ 65536) ∧
    2 ^ (⟨1, 1, .native8, .word, .reference⟩ : Config).ipBits - 1 < [0x90#8, 0x90#8].length ∧
    [0x90#8].length ≤ 2 ^ (⟨65536, 1, .native8, .word, .reference⟩ : Config).ipBits - 1 ∧
    (Memory.wf [(0, 1#8)] ∧ Memory.within 1 [(0, 1#8)]) ∧ ¬ Memory.within 1 [(1, 1#8)] ∧ ¬ Memory.wf [(0, 0#8)] := by decide

theorem witness_EveryReachableStateMeetsInvariant :
    ∃ t, State.launch Config.default [0x2D#8, 0x01#8, 0x00#8] [] = .next subState ∧ Reaches subState t ∧ t.ip = 3 :=
  ⟨_, rfl, .step .here rfl, rfl⟩

theorem witness_ProgramNeverChanges : ∃ t, step storeState = .next t ∧ t.mem ≠ storeState.mem := ⟨_, rfl, by decide⟩

/-- The word at 0xFFFF, whose second byte wraps to 0, and an address that reaches neither byte. -/
theorem witness_StoreThenLoad :
    storeState.mem.wf ∧ storeState.memIndex 0x0001#16 ≠ storeState.memIndex 0xFFFF#16 ∧
    storeState.memIndex 0xFFFF#16 ≠ storeState.memIndex (0xFFFF#16 + 1#16) := by decide

theorem witness_MixedWidthAccess :
    storeState.mem.wf ∧ storeState.memIndex 0xFFFF#16 ≠ storeState.memIndex (0xFFFF#16 + 1#16) := by decide

/-- MEM_SIZE = 1, a MEM_SIZE that divides 65535, and the default. -/
theorem witness_WordBytesShareALocation :
    (⟨1, 16, .native8, .word, .reference⟩ : Config).legal ∧ (⟨65535, 16, .native8, .word, .reference⟩ : Config).legal ∧
    Config.default.legal := by decide

theorem witness_CanonicalMemoryIsUnique :
    Memory.wf [(0, 1#8), (0xFFFF, 2#8)] ∧
    ∀ a, Memory.read [(0, 1#8), (0xFFFF, 2#8)] a = Memory.read (Memory.write (Memory.write [] 0xFFFF 2#8) 0 1#8) a :=
  ⟨by decide, fun _ => rfl⟩

/-- Two memories that differ at EA + 1 only. -/
theorem witness_ByteSourceIgnoresNextByte :
    (mem [(0x101, 7#8)] storeState).regs = storeState.regs ∧
    (mem [(0x101, 7#8)] storeState).memRead1 (storeState.ea ⟨.regs .bx, 0#16⟩) =
      storeState.memRead1 (storeState.ea ⟨.regs .bx, 0#16⟩) ∧
    (mem [(0x101, 7#8)] storeState).mem ≠ storeState.mem := by decide

theorem witness_AdderGivesEffectiveAddress :
    (MemForm.direct 0xFFFF#16).wf = true ∧ (MemForm.plain .bxSi).wf = true ∧ (MemForm.disp8 .bp 0x80#8).wf = true ∧
    (MemForm.disp16 .bx 0xFFFF#16).wf = true := by decide

theorem witness_RegisterWriteKeepsOtherLane : (put .ax 0x1234#16 (given [])).reg .ax = 0x1234#16 := by decide

theorem witness_OneRegisterPerStep :
    ∃ t, step subState = .next t ∧ t.reg .ax ≠ subState.reg .ax := ⟨_, rfl, by decide⟩

/-- Both directions with a register destination. The same forms serve add, sub and cmp. -/
theorem witness_MovToRegister :
    rmDst .toReg ⟨.bx, .word⟩ (.mem (.plain .bx)) = .reg ⟨.bx, .word⟩ ∧
    rmDst .toRm ⟨.ax, .hi⟩ (.reg ⟨.cx, .lo⟩) = .reg ⟨.cx, .lo⟩ := by decide

theorem witness_AddToRegister :
    rmDst .toReg ⟨.bx, .word⟩ (.mem (.plain .bx)) = .reg ⟨.bx, .word⟩ ∧
    rmDst .toRm ⟨.ax, .hi⟩ (.reg ⟨.cx, .lo⟩) = .reg ⟨.cx, .lo⟩ := by decide

theorem witness_SubToRegister :
    rmDst .toReg ⟨.ax, .hi⟩ (.mem (.direct 0x0300#16)) = .reg ⟨.ax, .hi⟩ ∧
    rmDst .toRm ⟨.ax, .word⟩ (.reg ⟨.ax, .word⟩) = .reg ⟨.ax, .word⟩ := by decide

theorem witness_CmpWritesFlagsOnly :
    rmDst .toReg ⟨.cx, .word⟩ (.mem (.direct 0x0300#16)) = .reg ⟨.cx, .word⟩ ∧
    rmDst .toRm ⟨.cx, .word⟩ (.reg ⟨.ax, .word⟩) = .reg ⟨.ax, .word⟩ := by decide

theorem witness_MovToMemory : storeState.mem.wf := by decide

/-- Both settings of BYTE_STORE. -/
theorem witness_ByteStoreWritesOneOrTwoBytes :
    (∀ c ∈ [Config.default, oneByte], (under c storeState).mem.wf ∧
      (under c storeState).memIndex ((under c storeState).ea (MemForm.plain .bx).operand) ≠
        (under c storeState).memIndex ((under c storeState).ea (MemForm.plain .bx).operand + 1#16)) ∧
    (under Config.default storeState).config.byteStore = .word ∧ (under oneByte storeState).config.byteStore = .byte ∧
    RegOp.wf .byte ⟨.ax, .hi⟩ = true ∧ immFits false .byte 0x00FF#16 = true := by decide

theorem witness_AluByteResultNative : Config.default.byteArith = .native8 := rfl

theorem witness_AluByteResultWide : wide.byteArith = .wide16 ∧ (⟨.ax, .hi⟩ : RegOp).slice ≠ .word := by decide

/-- A pair of each shape. -/
theorem witness_CmpFlagsAreSubFlags :
    (∃ d w reg rm, Instr.cmpRmReg .toRm .word ⟨.cx, .word⟩ (.reg ⟨.ax, .word⟩) = .cmpRmReg d w reg rm ∧
      Instr.subRmReg .toRm .word ⟨.cx, .word⟩ (.reg ⟨.ax, .word⟩) = .subRmReg d w reg rm) ∧
    (∃ sx w rm v, Instr.cmpImmRm true .word (.reg ⟨.bx, .word⟩) 0xFF80#16 = .cmpImmRm sx w rm v ∧
      Instr.subImmRm true .word (.reg ⟨.bx, .word⟩) 0xFF80#16 = .subImmRm sx w rm v) ∧
    (∃ w v, Instr.cmpImmAcc .byte 0x0009#16 = .cmpImmAcc w v ∧ Instr.subImmAcc .byte 0x0009#16 = .subImmAcc w v) :=
  ⟨⟨_, _, _, _, rfl, rfl⟩, ⟨_, _, _, _, rfl, rfl⟩, ⟨_, _, rfl, rfl⟩⟩

theorem witness_ArithmeticMemoryDestinationHalts :
    Instr.subRmReg .toRm .word ⟨.ax, .word⟩ (.mem (.plain .bx)) ∈
      [Instr.addRmReg .toRm .word ⟨.ax, .word⟩ (.mem (.plain .bx)), .subRmReg .toRm .word ⟨.ax, .word⟩ (.mem (.plain .bx)),
        .cmpRmReg .toRm .word ⟨.ax, .word⟩ (.mem (.plain .bx))] ∧
    Instr.cmpImmRm true .word (.mem (.plain .bx)) 5#16 ∈
      [Instr.addImmRm true .word (.mem (.plain .bx)) 5#16, .subImmRm true .word (.mem (.plain .bx)) 5#16,
        .cmpImmRm true .word (.mem (.plain .bx)) 5#16] ∧
    (Instr.subRmReg .toRm .word ⟨.ax, .word⟩ (.mem (.plain .bx))).wf = true ∧
    (Instr.cmpImmRm true .word (.mem (.plain .bx)) 5#16).wf = true := by decide

theorem witness_SameRegisterArithmetic : RegOp.wf .byte ⟨.bx, .hi⟩ = true ∧ RegOp.wf .word ⟨.di, .word⟩ = true := by decide

/-- `sub ax, 1` runs, and `mov [bx], ax` is a step to which the second clause applies. -/
theorem witness_FlagsWrittenOnlyByArithmetic :
    (∃ t, subState.run = .running ∧ step subState = .next t ∧
      decode subState.fetch = .ok (.subImmAcc .word 0x0001#16, []) ∧
      (Instr.subImmAcc .word 0x0001#16).op = .arith .sub ∧ t.run = .running) ∧
    (∃ t, storeState.run = .running ∧ step storeState = .next t ∧
      ∀ i rest a, decode storeState.fetch = .ok (i, rest) → i.op = .arith a → t.run ≠ .running) :=
  ⟨⟨_, rfl, rfl, by decide, rfl, rfl⟩, ⟨_, rfl, rfl, fun i rest a h ha => by
    have hd : decode storeState.fetch = .ok (.movRmReg .toRm .word ⟨.ax, .word⟩ (.mem (.plain .bx)), []) := by decide
    rw [hd] at h
    cases h
    cases ha⟩⟩

theorem witness_MemoryWrittenOnlyByMov :
    ∃ t, storeState.run = .running ∧ step storeState = .next t ∧ t.mem ≠ storeState.mem := ⟨_, rfl, rfl, by decide⟩

/-- Not taken; taken to 0, the lowest target; taken to L, the highest. -/
theorem witness_JneBranches :
    (flags true false (given [0x75#8, 0xFE#8])).zf = true ∧
    ((given [0x75#8, 0xFE#8]).zf = false ∧ ((0 : Nat) : Int) = ((given [0x75#8, 0xFE#8]).ip : Int) + 2 + (0xFE#8 : Byte).toInt ∧
      0 ≤ (given [0x75#8, 0xFE#8]).code.length) ∧
    ((given [0x75#8, 0x00#8]).zf = false ∧ ((2 : Nat) : Int) = ((given [0x75#8, 0x00#8]).ip : Int) + 2 + (0x00#8 : Byte).toInt ∧
      2 ≤ (given [0x75#8, 0x00#8]).code.length) := by decide

theorem witness_ReferenceBranchesFallThrough : (given []).config.branchEval = .reference := rfl

/-- Each of the four jumps, taken to a target at 0 or at L and not taken. -/
theorem witness_ExtendedConditionalJumps :
    extended.branchEval = .extended ∧
    ((flags true false joState).zf = true ∧ joState.zf = false ∧ (flags false true joState).sf = true ∧ joState.sf = false) ∧
    (decide (joState.reg .cx = 0x0000#16) = true ∧ decide ((put .cx 1#16 joState).reg .cx = 0x0000#16) = false) ∧
    (((0 : Nat) : Int) = (joState.ip : Int) + 2 + (0xFE#8 : Byte).toInt ∧ 0 ≤ joState.code.length) ∧
    (((2 : Nat) : Int) = (joState.ip : Int) + 2 + (0x00#8 : Byte).toInt ∧ 2 ≤ joState.code.length) := by decide

/-- CX = 1 does not loop, CX = 0 wraps and does; with ZF = 0 and ZF = 1; a target one byte below 0; the last clause under
both settings. -/
theorem witness_LoopFormsCountDown :
    joState.config.branchEval = .extended ∧
    decide ((put .cx 1#16 joState).reg .cx - 1#16 ≠ 0#16) = false ∧ decide (joState.reg .cx - 1#16 ≠ 0#16) = true ∧
    (decide (joState.reg .cx - 1#16 ≠ 0#16) && (flags true false joState).zf) = true ∧
    (decide (joState.reg .cx - 1#16 ≠ 0#16) && !joState.zf) = true ∧
    (((0 : Nat) : Int) = (joState.ip : Int) + 2 + (0xFE#8 : Byte).toInt ∧ 0 ≤ joState.code.length) ∧
    (joState.ip : Int) + 2 + (0xFD#8 : Byte).toInt < 0 ∧ ran (.jcxz 0x00#8) joState State.ip = some 2 ∧
    (subState.config.branchEval = .reference ∧ ran (.loop 0xFE#8) subState State.ip = some 2) := by decide

theorem witness_UnevaluableJumpsHalt :
    joState.config.branchEval = .extended ∧
    (subState.config.branchEval = .reference ∧ subState.run = .running ∧
      ran (.jo 0x00#8) subState State.run = some .running) := by decide

/-- One byte below 0, and one byte past L. -/
theorem witness_BranchOutOfStreamHalts :
    ((Instr.jne 0xFD#8).op = .branch .jne ∧ (Instr.jne 0xFD#8).disp8 = some 0xFD#8 ∧ (farJumpState.cond .jne).1 = .taken ∧
      (farJumpState.ip : Int) + 2 + (0xFD#8 : Byte).toInt < 0) ∧
    ((Instr.jne 0x01#8).op = .branch .jne ∧ (Instr.jne 0x01#8).disp8 = some 0x01#8 ∧ (farJumpState.cond .jne).1 = .taken ∧
      (farJumpState.code.length : Int) < (farJumpState.ip : Int) + 2 + (0x01#8 : Byte).toInt) := by decide

/-- Taken, not taken, and a taken jne under `reference`. -/
theorem witness_BranchLaws :
    ((Instr.jne 0xFE#8).op = .branch .jne ∧ (Instr.jne 0xFE#8).disp8 = some 0xFE#8 ∧ (subState.cond .jne).1 = .taken ∧
      ((flags true false subState).cond .jne).1 = .notTaken) ∧
    (subState.config.branchEval = .reference ∧ subState.run = .running ∧
      ran (.jne 0xFE#8) subState (fun t => (t.run, decide (t.ip ≠ subState.ip + (Instr.jne 0xFE#8).len))) =
        some (.running, true)) := by decide

/-- A step that emits a record, and one that emits none. -/
theorem witness_TraceRecordsEachStep :
    (∃ t, subState.run = .running ∧ step subState = .next t ∧ t.run = .running ∧ t.trace.length = 1) ∧
    (∃ t, farJumpState.run = .running ∧ step farJumpState = .next t ∧ t.run ≠ .running ∧ t.trace.length = 0) :=
  ⟨⟨_, rfl, rfl, rfl, rfl⟩, ⟨_, rfl, rfl, by decide, rfl⟩⟩

/-- A one-byte row, a two-byte row, and a word of the greatest length. -/
theorem witness_TableWordIsFetched :
    decodeTableWord 8 0x75 = some (.jne 0x00#8) ∧
    decodeTableWord 16 0xC600 = some (.movImmRm .byte (.mem (.plain .bxSi)) 0x0000#16) ∧
    decodeTableWord 48 0xC78610003412 = some longest := by decide

end Sys2Proof.Tests
end

section
/-! When a launch is accepted, when and why it is refused, and what the state it gives holds (spec/00_scope.md R6, R13;
10_state.md R27, R38; 70_reset_and_hazards.md R270, R273). -/

namespace Sys2Proof.Machine

/-! ### Two refusals of the launch, and its acceptance (the converse of `launch_eq_next`) -/

/-- R6: MEM_SIZE outside its range is refused before any other input is looked at. -/
theorem launch_of_not_legal {c : Config} (code : List Byte) (m : Memory) (hc : ¬ c.legal) :
    State.launch c code m = .refused .memSizeOutOfRange := if_pos hc

/-- R273(c): a stream longer than `2^IP_BITS - 1` is refused, whatever MEM_INIT holds. -/
theorem launch_of_maxCode_lt {c : Config} {code : List Byte} (m : Memory) (hc : c.legal)
    (hl : c.maxCode < code.length) : State.launch c code m = .refused .streamTooLong := by
  unfold State.launch
  rw [if_neg (not_not.2 hc), if_pos hl]

/-- R270: legal parameters, a stream that fits and a canonical memory inside MEM are launched. -/
theorem launch_of_accepted {c : Config} {code : List Byte} {m : Memory} (hc : c.legal)
    (hl : code.length ≤ c.maxCode) (hm : m.wf ∧ m.within c.memSize) :
    State.launch c code m = .next (State.start c code m) := by
  unfold State.launch
  rw [if_neg (not_not.2 hc), if_neg (Nat.not_lt.2 hl), if_neg (not_not.2 hm)]

/-- R27, R50: the start of a launch with such inputs meets the invariant, `ip` being 0. -/
theorem State.start_inv {c : Config} {code : List Byte} {m : Memory} (hc : c.legal)
    (hl : code.length ≤ c.maxCode) (hwf : m.wf) (hin : m.within c.memSize) : (State.start c code m).inv :=
  ⟨hc, hl, Nat.zero_le code.length, hwf, hin⟩

theorem Config.default_legal : Config.default.legal := by decide

/-! ### The obligations -/

/-- Settles O19: one launch lemma per clause, and `launch_eq_next` for the converse of the last. -/
theorem launchRefusesIllegalInputs : Obligations.LaunchRefusesIllegalInputs := by
  intro c code m
  refine ⟨launch_of_not_legal code m, fun hlo hhi hlong => launch_of_maxCode_lt m ⟨hlo, hhi⟩ hlong,
    fun hlo hhi hfits => ⟨fun hm => ⟨_, launch_of_accepted ⟨hlo, hhi⟩ hfits hm⟩, ?_⟩⟩
  rintro ⟨s, hs⟩
  obtain ⟨-, -, -, hmem⟩ := launch_eq_next hs
  exact hmem

/-- Settles O57: an accepted launch gives `State.start`, which holds each input as given, and R6's defaults with no program
and no listed cell are accepted. -/
theorem launchHoldsItsInputs : Obligations.LaunchHoldsItsInputs := by
  refine ⟨fun c code m s h => ?_, ?_⟩
  · obtain ⟨rfl, hc, hl, hwf, hin⟩ := launch_eq_next h
    exact ⟨State.start_code c code m, State.start_config c code m, State.start_trace c code m,
      State.start_inv hc hl hwf hin⟩
  · exact launch_of_accepted Config.default_legal (Nat.zero_le Config.default.maxCode)
      ⟨State.reset_mem_wf, List.forall_mem_nil _⟩

end Sys2Proof.Machine
end

section
/-! The decoder and the encoder are each other's inverse, class by class and then whole (spec/30_encoding.md R71 to R105):
what the length of a fetched instruction and the fetch of a placed one rest on. -/

namespace Sys2Proof

/-! ### The forms an operation selects (R92) -/

@[simp] theorem ArithOp.encode_rmInstr (op : ArithOp) (d : Dir) (w : Width) (reg : RegOp) (rm : RmOperand) :
    encode (op.rmInstr d w reg rm) = arithRmOpcode op d w :: encodeModRegRm reg.field rm := by
  cases op <;> rfl

@[simp] theorem ArithOp.encode_immRmInstr (op : ArithOp) (s : Bool) (w : Width) (rm : RmOperand) (v : Word) :
    encode (op.immRmInstr s w rm v) = arithImmOpcode s w :: (encodeModRegRm op.code rm ++ immBytes s w v) := by
  cases op <;> rfl

@[simp] theorem ArithOp.encode_accInstr (op : ArithOp) (w : Width) (v : Word) :
    encode (op.accInstr w v) = accOpcode op w :: immBytes false w v := by
  cases op <;> rfl

theorem ArithOp.rmInstr_wf (op : ArithOp) (d : Dir) (w : Width) (reg : RegOp) (rm : RmOperand) :
    (op.rmInstr d w reg rm).wf = (reg.wf w && rm.wf w) := by
  cases op <;> rfl

theorem ArithOp.immRmInstr_wf (op : ArithOp) (s : Bool) (w : Width) (rm : RmOperand) (v : Word) :
    (op.immRmInstr s w rm v).wf = (rm.wf w && immFits s w v) := by
  cases op <;> rfl

theorem ArithOp.accInstr_wf (op : ArithOp) (w : Width) (v : Word) : (op.accInstr w v).wf = immFits false w v := by
  cases op <;> rfl

/-- R92: a mov is one of its three forms. -/
theorem mov_form {i : Instr} (h : i.op = .mov) :
    (∃ d w reg rm, i = .movRmReg d w reg rm) ∨ (∃ w rm v, i = .movImmRm w rm v) ∨ ∃ w reg v, i = .movImmReg w reg v := by
  cases i <;> simp only [Instr.op, reduceCtorEq] at h
  case movRmReg => exact .inl ⟨_, _, _, _, rfl⟩
  case movImmRm => exact .inr (.inl ⟨_, _, _, rfl⟩)
  case movImmReg => exact .inr (.inr ⟨_, _, _, rfl⟩)

/-- R92: an arithmetic instruction is one of its operation's three forms. -/
theorem arith_form {i : Instr} {a : ArithOp} (h : i.op = .arith a) :
    (∃ d w reg rm, i = a.rmInstr d w reg rm) ∨ (∃ s w rm v, i = a.immRmInstr s w rm v) ∨ ∃ w v, i = a.accInstr w v := by
  cases i <;> simp only [Instr.op, Op.arith.injEq, reduceCtorEq] at h <;> subst h
  case addRmReg | subRmReg | cmpRmReg => exact .inl ⟨_, _, _, _, rfl⟩
  case addImmRm | subImmRm | cmpImmRm => exact .inr (.inl ⟨_, _, _, _, rfl⟩)
  case addImmAcc | subImmAcc | cmpImmAcc => exact .inr (.inr ⟨_, _, rfl⟩)

/-- R95, R96: the class of a branch's opcode byte, and the branch its low bits select. -/
theorem BranchOp.opcode_spec (b : BranchOp) :
    (classify b.opcode = some .jcc ∧ BranchOp.ofCc (b.opcode.extractLsb' 0 4) = b) ∨
    (classify b.opcode = some .loop ∧ BranchOp.ofKk (b.opcode.extractLsb' 0 2) = b) := by
  cases b <;> decide

/-! ### Decoding (R104) -/

theorem decode_of_classify {b0 : Byte} {c : OpClass} (h : classify b0 = some c) (bs : List Byte) :
    decode (b0 :: bs) = decodeClass c b0 bs := by
  rw [decode_cons, h]

/-- A successful decode read an opcode byte of some class and then that class's case. -/
theorem decode_eq_ok_class {bs rest : List Byte} {i : Instr} (h : decode bs = .ok (i, rest)) :
    ∃ b0 bs' c, bs = b0 :: bs' ∧ classify b0 = some c ∧ decodeClass c b0 bs' = .ok (i, rest) := by
  cases bs with
  | nil => cases h
  | cons b0 bs' =>
    cases hc : classify b0 with
    | none =>
      rw [decode_cons, hc] at h
      cases h
    | some c => exact ⟨b0, bs', c, rfl, hc, (decode_of_classify hc bs').symm.trans h⟩

/-- R99, R104: what a class's case decodes is well formed, and its encoding is what was read. -/
theorem decodeClass_eq_ok {c : OpClass} {b0 : Byte} {bs rest : List Byte} {i : Instr} (hc : classify b0 = some c)
    (h : decodeClass c b0 bs = .ok (i, rest)) : i.wf = true ∧ b0 :: bs = encode i ++ rest := by
  cases c with
  | movRm =>
    obtain ⟨reg, rm, rfl, hreg, hrm, rfl⟩ := decodeRm_eq_ok h
    simp [Instr.wf, hreg, hrm, encode, movRmOpcode_back b0 hc]
  | movImmRm =>
    obtain ⟨⟨b1, bs1⟩, h1, h⟩ := bind_eq_ok.1 h
    simp only at h
    split at h
    · rename_i hf
      obtain ⟨rm, v, rfl, hrm, hv, hbs⟩ := decodeImmRm_eq_ok h
      simp [Instr.wf, hrm, hv, encode, movImmRmOpcode_back b0 hc, next8_eq_ok h1, hbs, hf]
    · cases h
  | movImmReg =>
    obtain ⟨⟨v, bs1⟩, hv, h⟩ := bind_eq_ok.1 h
    cases h
    obtain ⟨hfits, rfl⟩ := decodeImm_eq_ok hv
    simp [Instr.wf, hfits, encode, movImmRegOpcode_back b0 hc]
  | arithRm =>
    simp only [decodeClass] at h
    split at h
    · rename_i op hop
      obtain ⟨reg, rm, rfl, hreg, hrm, rfl⟩ := decodeRm_eq_ok h
      simp [ArithOp.rmInstr_wf, hreg, hrm, arithRmOpcode_back b0 hc op hop]
    · cases h
  | arithImmRm =>
    obtain ⟨⟨b1, bs1⟩, h1, h⟩ := bind_eq_ok.1 h
    simp only at h
    split at h
    · rename_i op hop
      obtain ⟨rm, v, rfl, hrm, hv, hbs⟩ := decodeImmRm_eq_ok h
      simp [ArithOp.immRmInstr_wf, hrm, hv, arithImmOpcode_back b0 hc, next8_eq_ok h1, hbs,
        ArithOp.code_of_ofCode hop]
    · cases h
  | arithAcc =>
    simp only [decodeClass] at h
    split at h
    · rename_i op hop
      obtain ⟨⟨v, bs1⟩, hv, h⟩ := bind_eq_ok.1 h
      cases h
      obtain ⟨hfits, rfl⟩ := decodeImm_eq_ok hv
      simp [ArithOp.accInstr_wf, hfits, accOpcode_back b0 hc op hop]
    · cases h
  | jcc =>
    obtain ⟨⟨d, bs1⟩, hd, h⟩ := bind_eq_ok.1 h
    cases h
    simp [BranchOp.encode_instr, jccOpcode_back b0 hc, next8_eq_ok hd]
  | loop =>
    obtain ⟨⟨d, bs1⟩, hd, h⟩ := bind_eq_ok.1 h
    cases h
    simp [BranchOp.encode_instr, loopOpcode_back b0 hc, next8_eq_ok hd]

/-- R99, R104: what decodes is well formed, and the bytes read are its encoding. -/
theorem decode_eq_ok {bs rest : List Byte} {i : Instr} (h : decode bs = .ok (i, rest)) :
    i.wf = true ∧ bs = encode i ++ rest := by
  obtain ⟨b0, bs', c, rfl, hc, h⟩ := decode_eq_ok_class h
  exact decodeClass_eq_ok hc h

/-- R100: the bytes a decode read are as many as the instruction's length. -/
theorem decode_length {bs rest : List Byte} {i : Instr} (h : decode bs = .ok (i, rest)) :
    bs.length = i.len + rest.length := by
  obtain ⟨-, rfl⟩ := decode_eq_ok h
  rw [List.length_append, encode_length]

/-! ### Decoding an encoding (R104), one lemma per class -/

theorem decode_encode_movRmReg {d : Dir} {w : Width} {reg : RegOp} {rm : RmOperand} (hr : reg.wf w = true)
    (hm : rm.wf w = true) (rest : List Byte) :
    decode (encode (.movRmReg d w reg rm) ++ rest) = .ok (.movRmReg d w reg rm, rest) := by
  obtain ⟨hc, hd, hw⟩ := movRmOpcode_spec d w
  exact (decode_of_classify hc _).trans (decodeRm_encode _ hd hw hr hm rest)

theorem decode_encode_movImmRm {w : Width} {rm : RmOperand} {v : Word} (hm : rm.wf w = true)
    (hv : immFits false w v = true) (rest : List Byte) :
    decode (encode (.movImmRm w rm v) ++ rest) = .ok (.movImmRm w rm v, rest) := by
  obtain ⟨hc, hw⟩ := movImmRmOpcode_spec w
  simp only [encode, encodeModRegRm, List.cons_append, List.append_assoc, decode_of_classify hc, decodeClass, next8_cons,
    bind_ok, hw, regField_modRegRm, if_true, decodeImmRm_encode _ _ hm hv]

theorem decode_encode_movImmReg {w : Width} {reg : RegOp} {v : Word} (hr : reg.wf w = true)
    (hv : immFits false w v = true) (rest : List Byte) :
    decode (encode (.movImmReg w reg v) ++ rest) = .ok (.movImmReg w reg v, rest) := by
  obtain ⟨hc, hw, hf⟩ := movImmRegOpcode_spec w reg.field
  simp only [encode, List.cons_append, decode_of_classify hc, decodeClass, hw, hf, decodeImm_immBytes hv, bind_ok,
    RegOp.ofField_field hr]
  rfl

theorem decode_encode_arithRm (op : ArithOp) {d : Dir} {w : Width} {reg : RegOp} {rm : RmOperand} (hr : reg.wf w = true)
    (hm : rm.wf w = true) (rest : List Byte) :
    decode (encode (op.rmInstr d w reg rm) ++ rest) = .ok (op.rmInstr d w reg rm, rest) := by
  obtain ⟨hc, ho, hd, hw⟩ := arithRmOpcode_spec op d w
  simp only [ArithOp.encode_rmInstr, List.cons_append, decode_of_classify hc, decodeClass, ho,
    decodeRm_encode _ hd hw hr hm]

theorem decode_encode_arithImmRm (op : ArithOp) {s : Bool} {w : Width} {rm : RmOperand} {v : Word} (hm : rm.wf w = true)
    (hv : immFits s w v = true) (rest : List Byte) :
    decode (encode (op.immRmInstr s w rm v) ++ rest) = .ok (op.immRmInstr s w rm v, rest) := by
  obtain ⟨hc, hs, hw⟩ := arithImmOpcode_spec s w
  simp only [ArithOp.encode_immRmInstr, encodeModRegRm, List.cons_append, List.append_assoc, decode_of_classify hc,
    decodeClass, next8_cons, bind_ok, hs, hw, regField_modRegRm, ArithOp.ofCode_code, decodeImmRm_encode _ _ hm hv]

theorem decode_encode_arithAcc (op : ArithOp) {w : Width} {v : Word} (hv : immFits false w v = true)
    (rest : List Byte) : decode (encode (op.accInstr w v) ++ rest) = .ok (op.accInstr w v, rest) := by
  obtain ⟨hc, ho, hw⟩ := accOpcode_spec op w
  simp only [ArithOp.encode_accInstr, List.cons_append, decode_of_classify hc, decodeClass, ho, hw,
    decodeImm_immBytes hv, bind_ok]
  rfl

theorem decode_encode_branch (b : BranchOp) (d : Byte) (rest : List Byte) :
    decode (encode (b.instr d) ++ rest) = .ok (b.instr d, rest) := by
  rw [BranchOp.encode_instr]
  rcases b.opcode_spec with ⟨hc, hb⟩ | ⟨hc, hb⟩ <;>
  · simp only [List.cons_append, decode_of_classify hc, decodeClass, next8_cons, bind_ok, hb]
    rfl

/-- R104: decoding the encoding of a well-formed instruction gives it back, whatever bytes follow. -/
theorem decode_encode {i : Instr} (h : i.wf = true) (rest : List Byte) : decode (encode i ++ rest) = .ok (i, rest) := by
  cases hop : i.op with
  | mov =>
    rcases mov_form hop with ⟨d, w, reg, rm, rfl⟩ | ⟨w, rm, v, rfl⟩ | ⟨w, reg, v, rfl⟩ <;>
      obtain ⟨h1, h2⟩ := Bool.and_eq_true_iff.1 h
    · exact decode_encode_movRmReg h1 h2 rest
    · exact decode_encode_movImmRm h1 h2 rest
    · exact decode_encode_movImmReg h1 h2 rest
  | arith a =>
    rcases arith_form hop with ⟨d, w, reg, rm, rfl⟩ | ⟨s, w, rm, v, rfl⟩ | ⟨w, v, rfl⟩
    · obtain ⟨hreg, hrm⟩ := Bool.and_eq_true_iff.1 ((a.rmInstr_wf d w reg rm).symm.trans h)
      exact decode_encode_arithRm a hreg hrm rest
    · obtain ⟨hrm, hv⟩ := Bool.and_eq_true_iff.1 ((a.immRmInstr_wf s w rm v).symm.trans h)
      exact decode_encode_arithImmRm a hrm hv rest
    · rw [ArithOp.accInstr_wf] at h
      exact decode_encode_arithAcc a h rest
  | branch b =>
    obtain ⟨d, rfl, -, -⟩ := Machine.exec_branch hop
    exact decode_encode_branch b d rest

/-- R100: a decode does not look past the bytes it reads, so more of the stream changes nothing. -/
theorem decode_append {bs rest : List Byte} {i : Instr} (h : decode bs = .ok (i, rest)) (more : List Byte) :
    decode (bs ++ more) = .ok (i, rest ++ more) := by
  obtain ⟨hwf, rfl⟩ := decode_eq_ok h
  rw [List.append_assoc]
  exact decode_encode hwf _

end Sys2Proof
end

section
/-! The invariant of a run, kept by every step (10_state.md R27, R29; 20_memory.md R50). -/

namespace Sys2Proof.Machine

/-! ### What keeps the invariant: one lemma per update -/

theorem State.halt_inv {s : State} (h : s.inv) (r : HaltReason) : (s.halt r).inv := h

theorem State.emit_inv {s : State} (h : s.inv) (t : TraceRecord) : (s.emit t).inv := h

theorem State.writeReg_inv {s : State} (h : s.inv) (r : RegOp) (v : Word) : (s.writeReg r v).inv := h

theorem State.updateFlags_inv {s : State} (h : s.inv) (o : AluOut) : (s.updateFlags o).inv := h

theorem State.writeCount_inv {s : State} (h : s.inv) (o : Option Word) : (s.writeCount o).inv := by
  cases o <;> exact h

theorem State.setIp_inv {s : State} (h : s.inv) {n : Nat} (hn : n ≤ s.code.length) : (s.setIp n).inv := by
  obtain ⟨hc, hl, -, hmem⟩ := h
  exact ⟨hc, hl, hn, hmem⟩

/-- R50, R135: the write of an operand keeps memory canonical and inside MEM. -/
theorem State.writeOp_inv {s : State} (h : s.inv) (w : Width) (p : Place) (v : Word) : (s.writeOp w p v).inv := by
  obtain ⟨hc, hl, hip, hwf, hin⟩ := h
  simpa only [State.inv, State.writeOp_config, State.writeOp_code, State.writeOp_ip] using
    ⟨hc, hl, hip, State.writeOp_wf hwf w p v, State.writeOp_within hc hin w p v⟩

/-! ### The shared operations, an instruction, a step -/

theorem movExec_keeps_inv {w : Width} {p : Place} {v : Word} {n : Nat} {s u : State} (hs : s.inv)
    (hn : n ≤ s.code.length) (h : movExec w p v n s = .next u) : u.inv := by
  cases h
  exact State.setIp_inv (State.writeOp_inv hs w p v) (by simpa using hn)

theorem arithExec_keeps_inv {fn : AluFn} {p : Place} {o : Operand} {w : Width} {wb : Bool} {n : Nat} {s u : State}
    (hs : s.inv) (hn : n ≤ s.code.length) (h : arithExec fn p o w wb n s = .next u) : u.inv := by
  cases p with
  | mem m =>
    cases h
    exact State.halt_inv hs _
  | reg r =>
    cases wb with
    | false =>
      cases h
      exact State.setIp_inv (State.updateFlags_inv hs _) hn
    | true =>
      cases h
      exact State.setIp_inv (State.updateFlags_inv (State.writeReg_inv hs r _) _) hn

/-- R145, R220: the target of a branch that is taken was checked to lie in the stream. -/
theorem branchExec_keeps_inv {b : BranchOp} {d : Byte} {n : Nat} {s u : State} (hs : s.inv) (hn : n ≤ s.code.length)
    (h : branchExec b d n s = .next u) : u.inv := by
  rcases branchExec_cases b d n s with ⟨-, hb⟩ | ⟨-, -, hb⟩ | ⟨t, hb, ht⟩ <;> cases hb.symm.trans h
  · exact State.halt_inv hs _
  · exact State.halt_inv hs _
  · refine State.setIp_inv (State.writeCount_inv hs _) ?_
    rw [State.writeCount_code]
    rcases ht with ⟨-, rfl⟩ | ⟨-, hin, rfl⟩
    · exact hn
    · exact (target_of_inStream hin).2.1

/-- R154: an instruction that lies inside the stream keeps the invariant. -/
theorem exec_keeps_inv {i : Instr} {s u : State} (hs : s.inv) (hn : s.next i ≤ s.code.length)
    (h : exec i s = .next u) : u.inv := by
  cases hop : i.op with
  | mov =>
    obtain ⟨w, p, o, -, -, -, he⟩ := exec_mov hop
    exact movExec_keeps_inv hs hn ((he s).symm.trans h)
  | arith a =>
    obtain ⟨w, p, o, -, -, -, he⟩ := exec_arith hop
    exact arithExec_keeps_inv hs hn ((he s).symm.trans h)
  | branch b =>
    obtain ⟨d, -, hlen, he⟩ := exec_branch hop
    rw [State.next, hlen] at hn
    exact branchExec_keeps_inv hs hn ((he s).symm.trans h)

/-- R101: the bytes of a fetched instruction all lie in the stream. -/
theorem next_le_of_decode_fetch {s : State} {i : Instr} {rest : List Byte} (hip : s.ip ≤ s.code.length)
    (h : decode s.fetch = .ok (i, rest)) : s.next i ≤ s.code.length := by
  have hlen := decode_length h
  rw [State.fetch, List.length_drop] at hlen
  rw [State.next]
  omega

theorem step_of_halted {s : State} {r : HaltReason} (h : s.run = .halted r) : step s = .fault (.halted r) := by
  rw [step, h]

theorem running_of_step {s t : State} (h : step s = .next t) : s.run = .running := by
  cases hr : s.run with
  | running => rfl
  | halted r => cases (step_of_halted hr).symm.trans h

theorem step_keeps_inv {s t : State} (hs : s.inv) (h : step s = .next t) : t.inv := by
  rcases step_cases (running_of_step h) h with ⟨-, rfl⟩ | ⟨-, f, -, rfl⟩ | ⟨-, i, rest, u, hd, hu, ht⟩
  · exact State.halt_inv hs _
  · exact State.halt_inv hs _
  · have ⟨_, _, hip, _⟩ := hs
    have hinv : u.inv := exec_keeps_inv hs (next_le_of_decode_fetch hip hd) hu
    rcases ht with ⟨r, -, rfl⟩ | ⟨-, rfl⟩
    · exact hinv
    · exact State.emit_inv hinv _

/-- What holds of a state and is kept by every step holds of every state a run from it passes through. -/
theorem Reaches.keeps {P : State → Prop} (hstep : ∀ {s t : State}, P s → Machine.step s = .next t → P t) {s t : State}
    (h : Reaches s t) (hs : P s) : P t := by
  induction h with
  | here => exact hs
  | step _ ht ih => exact hstep ih ht

/-! ### The obligations -/

/-- Settles O16: through the three ways a step can go (`step_cases`); an instruction that decoded lies in the stream, so it
moves `ip` to at most L. -/
theorem stepKeepsInvariant : Obligations.StepKeepsInvariant :=
  fun _ _ hs h => step_keeps_inv hs h

/-- Settles O20: a launch that is accepted starts in the invariant, and every step keeps it. -/
theorem everyReachableStateMeetsInvariant : Obligations.EveryReachableStateMeetsInvariant := by
  intro c code m s t hlaunch hreach
  obtain ⟨rfl, hc, hl, hwf, hin⟩ := launch_eq_next hlaunch
  exact hreach.keeps step_keeps_inv (State.start_inv hc hl hwf hin)

/-- Settles O17: reset is the start of a launch with legal parameters, no program and no listed cell. -/
theorem resetMeetsInvariant : Obligations.ResetMeetsInvariant :=
  State.start_inv Config.default_legal (Nat.zero_le _) State.reset_mem_wf (List.forall_mem_nil _)

/-- Settles O11: `step` looks at RUN first. -/
theorem haltedCoreNeverSteps : Obligations.HaltedCoreNeverSteps :=
  fun _ _ h => step_of_halted h

end Sys2Proof.Machine
end

section
/-! Reading and writing a register through a slice, the values a launch starts from, and the fetch of a placed table word
(10_state.md R23 to R25, R37, R38). -/

namespace Sys2Proof.Machine

/-! ### Registers through a slice -/

/-- R24: a slice reads back the bits written through it. -/
theorem RegFile.read_write_same (f : RegFile) (r : Reg) (sl : Slice) (v : Word) :
    (f.write ⟨r, sl⟩ v).read ⟨r, sl⟩ = if sl = .word then v else zext16 (lowByte v) := by
  have hget := f.get_write_same ⟨r, sl⟩ v
  cases sl <;> simp [RegFile.read, hget, Slice.merge]

/-- R25: 0xFF into the low byte of 0x1234. -/
theorem Slice.merge_lo_example : Slice.merge .lo 0x1234#16 0x00FF#16 = 0x12FF#16 := by decide

/-- R25: then 0xAB into the high byte. -/
theorem Slice.merge_hi_example : Slice.merge .hi 0x12FF#16 0x00AB#16 = 0xABFF#16 := by decide

/-! ### Fetching placed bytes -/

/-- What stands at offset `k` of a stream after `bs` was placed there. -/
theorem drop_placeBytes (code : List Byte) (k : Nat) (bs : List Byte) :
    (placeBytes code k bs).drop k = bs ++ code.drop (k + bs.length) := by
  have hlen : (code.take k ++ List.replicate (k - code.length) 0#8).length = k := by
    simp only [List.length_append, List.length_take, List.length_replicate]
    omega
  rw [placeBytes, List.append_assoc, List.drop_left' hlen]

theorem State.withFetchWord_fetch (s : State) (nbits w : Nat) :
    (s.withFetchWord nbits w).fetch =
      tableWordBytes nbits w ++ s.code.drop (s.ip + (tableWordBytes nbits w).length) :=
  drop_placeBytes s.code s.ip _

theorem decodeTableWord_eq_some {nbits w : Nat} {i : Instr} (h : decodeTableWord nbits w = some i) :
    ∃ rest, decode (tableWordBytes nbits w) = .ok (i, rest) := by
  unfold decodeTableWord at h
  split at h
  · rename_i j rest hd
    cases h
    exact ⟨rest, hd⟩
  · cases h

/-! ### The obligations -/

/-- Settles O31: `writeReg_wrote`, the read back, and the two merges of the worked example. -/
theorem registerWriteKeepsOtherLane : Obligations.RegisterWriteKeepsOtherLane := by
  intro s r sl v
  refine ⟨s.writeReg_wrote ⟨r, sl⟩ v, s.regs.read_write_same r sl v, fun hr => ?_⟩
  have hlo : (s.writeReg ⟨r, .lo⟩ 0x00FF#16).reg r = 0x12FF#16 := by
    rw [s.writeReg_reg_same ⟨r, .lo⟩, hr, Slice.merge_lo_example]
  refine ⟨hlo, ?_⟩
  rw [State.writeReg_reg_same _ ⟨r, .hi⟩, hlo, Slice.merge_hi_example]

/-- Settles O56: the fetched bytes begin with the table word's, and a decode is the same whatever bytes follow. -/
theorem tableWordIsFetched : Obligations.TableWordIsFetched := by
  intro s nbits w i _ h
  obtain ⟨rest, hd⟩ := decodeTableWord_eq_some h
  refine ⟨s.withFetchWord_run nbits w, rest ++ s.code.drop (s.ip + (tableWordBytes nbits w).length), ?_⟩
  rw [s.withFetchWord_fetch]
  exact decode_append hd _

/-- Settles O18: an accepted launch gives `State.start`. -/
theorem launchGivesResetValues : Obligations.LaunchGivesResetValues := by
  intro c code m s h
  obtain ⟨rfl, -⟩ := launch_eq_next h
  exact ⟨RegFile.reset_get, State.start_zf c code m, State.start_sf c code m, State.start_ip c code m,
    State.start_run c code m, State.start_mem c code m⟩

/-- Settles O30: a byte slice is zero-extended, so its number is the byte's. -/
theorem registerReadZeroExtends : Obligations.RegisterReadZeroExtends := fun _ _ =>
  ⟨rfl, (zext16_toNat _).trans (lowByte_toNat _), (zext16_toNat _).trans (highByte_toNat _)⟩

end Sys2Proof.Machine
end

section
/-! Data memory: little-endian reads, what a store leaves at every address, when the two bytes of a word share a location,
and that the canonical form is one (spec/20_memory.md R50 to R55). -/

namespace Sys2Proof.Machine

/-! ### Reading (R50, R52) -/

/-- R52, R56: the location of the byte after `a`, whose address wraps at 2^16. -/
theorem State.memIndex_add_one (s : State) (a : Word) :
    s.memIndex (a + 1#16) = (a.toNat + 1) % 65536 % s.config.memSize := by
  simp [State.memIndex, BitVec.toNat_add]

theorem State.memRead2_toNat (s : State) (a : Word) :
    (s.memRead2 a).toNat = (s.memRead1 (a + 1#16)).toNat * 256 + (s.memRead1 a).toNat :=
  joinBytes_toNat _ _

/-! ### A word store (R53) -/

theorem State.memWrite2_wrote {s : State} (h : s.mem.wf) (a v : Word) : s.wroteMem (s.memWrite2 a v) 2 a v :=
  State.store_wrote h .word a v

theorem State.memWrite2_read_high {s : State} (h : s.mem.wf) (a v : Word) :
    (s.memWrite2 a v).memRead1 (a + 1#16) = highByte v := by
  rw [State.memWrite2_read h, if_pos rfl]

theorem State.memWrite2_read_low {s : State} (h : s.mem.wf) {a : Word} (hne : s.memIndex a ≠ s.memIndex (a + 1#16))
    (v : Word) : (s.memWrite2 a v).memRead1 a = lowByte v := by
  rw [State.memWrite2_read h, if_neg hne, if_pos rfl]

theorem State.memWrite2_read2_same {s : State} (h : s.mem.wf) {a : Word} (hne : s.memIndex a ≠ s.memIndex (a + 1#16))
    (v : Word) : (s.memWrite2 a v).memRead2 a = v := by
  rw [State.memRead2, State.memWrite2_read_high h, State.memWrite2_read_low h hne, joinBytes_highByte_lowByte]

/-! ### When neighbours share a location (R50) -/

theorem mod_eq_succ_mod_iff (n k : Nat) : n % k = (n + 1) % k ↔ k = 1 := by
  have h : n ≡ n + 1 [MOD k] ↔ k ∣ n + 1 - n := Nat.modEq_iff_dvd' (Nat.le_succ n)
  rwa [Nat.add_sub_cancel_left, Nat.dvd_one] at h

/-- Below 0xFFFF the next address does not wrap. -/
theorem State.memIndex_eq_next_iff_of_ne {a : Word} (ha : a ≠ 0xFFFF#16) (s : State) :
    s.memIndex a = s.memIndex (a + 1#16) ↔ s.config.memSize = 1 := by
  have hlt : a.toNat + 1 < 65536 := by bv_omega
  rw [State.memIndex_add_one, Nat.mod_eq_of_lt hlt]
  exact mod_eq_succ_mod_iff _ _

/-- R56: the address after 0xFFFF is 0. -/
theorem State.memIndex_last_eq_next_iff (s : State) :
    s.memIndex 0xFFFF#16 = s.memIndex (0xFFFF#16 + 1#16) ↔ s.config.memSize ∣ 65535 := by
  rw [State.memIndex_add_one, Nat.dvd_iff_mod_eq_zero]
  simp [State.memIndex]

/-! ### The canonical form is one -/

/-- In a canonical memory a listed cell is what its address reads as. -/
theorem Memory.read_of_mem {m : Memory} (h : m.wf) {c : Host.Cell} (hc : c ∈ m) : m.read c.1 = c.2 := by
  obtain ⟨hp, -⟩ := h
  induction m with
  | nil => cases hc
  | cons d m ih =>
    obtain ⟨hd, hp⟩ := List.pairwise_cons.1 hp
    rcases List.mem_cons.1 hc with rfl | hc
    · exact if_pos rfl
    · exact (if_neg (Nat.ne_of_lt (hd c hc))).trans (ih hc hp)

/-- An address that does not read as the unlisted byte is listed. -/
theorem Memory.mem_of_read_ne {m : Memory} {a : Nat} (h : m.read a ≠ unlistedByte) : (a, m.read a) ∈ m := by
  induction m with
  | nil => exact absurd rfl h
  | cons d m ih =>
    obtain ⟨k, b⟩ := d
    by_cases hk : k = a
    · simp [Memory.read, hk]
    · simp only [Memory.read, if_neg hk] at h ⊢
      exact List.mem_cons_of_mem _ (ih h)

/-- Which cells a canonical memory lists is said by its reads alone. -/
theorem Memory.mem_iff_read {m : Memory} (h : m.wf) (c : Host.Cell) :
    c ∈ m ↔ m.read c.1 = c.2 ∧ c.2 ≠ unlistedByte := by
  refine ⟨fun hc => ⟨Memory.read_of_mem h hc, h.2 c hc⟩, ?_⟩
  rintro ⟨hr, hne⟩
  have hmem := Memory.mem_of_read_ne (hr.trans_ne hne)
  rwa [hr] at hmem

theorem Memory.wf_nodup {m : Memory} (h : m.wf) : m.Nodup :=
  h.1.imp fun hlt heq => Nat.ne_of_lt hlt (congrArg Prod.fst heq)

/-- Canonical memories with the same reads list the same cells, and both in rising order. -/
theorem Memory.ext_read {m m' : Memory} (h : m.wf) (h' : m'.wf) (hr : ∀ a, m.read a = m'.read a) : m = m' := by
  have hperm : m.Perm m' := (List.perm_ext_iff_of_nodup (Memory.wf_nodup h) (Memory.wf_nodup h')).2 fun c => by
    rw [Memory.mem_iff_read h, Memory.mem_iff_read h', hr]
  exact hperm.eq_of_pairwise (fun _ _ _ _ hlt hgt => absurd hlt (Nat.lt_asymm hgt)) h.1 h'.1

/-! ### The obligations -/

/-- Settles O22: the word is the join of the bytes at `a + 1` and `a`, and `a + 1` wraps at 2^16. -/
theorem wordReadIsLittleEndian : Obligations.WordReadIsLittleEndian := by
  intro s a
  refine ⟨rfl, ?_⟩
  rw [← s.memIndex_add_one a]
  exact s.memRead2_toNat a

/-- Settles O23: a word store is a store of two bytes (`memWrite2_wrote`), and the word reads back from its halves. -/
theorem storeThenLoad : Obligations.StoreThenLoad := fun s a v b h =>
  ⟨State.memWrite2_wrote h a v, State.memWrite1_read_same h a b, fun _ hx => s.memWrite1_read_other hx b,
    fun hne => State.memWrite2_read2_same h hne v⟩

/-- Settles O24: the two halves of the stored word, as numbers. -/
theorem mixedWidthAccess : Obligations.MixedWidthAccess := by
  intro s a v h hne
  rw [State.memWrite2_read_low h hne, State.memWrite2_read_high h]
  exact ⟨lowByte_toNat v, highByte_toNat v⟩

/-- Settles O25: only at 0xFFFF does the next address wrap; everywhere else the two indices are of neighbouring numbers. -/
theorem wordBytesShareALocation : Obligations.WordBytesShareALocation := by
  intro s a _
  by_cases ha : a = 0xFFFF#16
  · subst ha
    rw [s.memIndex_last_eq_next_iff]
    have hone : s.config.memSize = 1 → s.config.memSize ∣ 65535 := fun h => h ▸ Nat.one_dvd _
    simpa using hone
  · simpa [ha] using State.memIndex_eq_next_iff_of_ne ha s

/-- Settles O26: a canonical memory is determined by its reads. -/
theorem canonicalMemoryIsUnique : Obligations.CanonicalMemoryIsUnique :=
  fun _ _ h h' hr => Memory.ext_read h h' hr

end Sys2Proof.Machine
end

section
/-! What a step leaves of the program, the parameters and data memory (10_state.md R37; 20_memory.md R51, R64, R65). -/

namespace Sys2Proof.Machine

/-! ### The program and the parameters -/

/-- R65: fetch reads CODE, which no operand write touches. -/
@[simp] theorem State.writeOp_fetch (s : State) (w : Width) (p : Place) (v : Word) : (s.writeOp w p v).fetch = s.fetch := by
  rw [State.fetch, State.fetch, State.writeOp_code, State.writeOp_ip]

theorem exec_keeps_program {i : Instr} {s u : State} (h : exec i s = .next u) : u.code = s.code ∧ u.config = s.config := by
  obtain ⟨t, ht, hcases⟩ := exec_next i s
  cases ht.symm.trans h
  rcases hcases with ⟨r, rfl, -⟩ | ⟨-, hcode, hconfig, -⟩
  · exact ⟨s.halt_code r, s.halt_config r⟩
  · exact ⟨hcode, hconfig⟩

theorem step_keeps_program {s t : State} (h : step s = .next t) : t.code = s.code ∧ t.config = s.config := by
  rcases step_cases (running_of_step h) h with ⟨-, rfl⟩ | ⟨-, f, -, rfl⟩ | ⟨-, i, rest, u, -, hu, ht⟩
  · exact ⟨s.halt_code _, s.halt_config _⟩
  · exact ⟨s.halt_code _, s.halt_config _⟩
  · have hkeep := exec_keeps_program hu
    rcases ht with ⟨r, -, rfl⟩ | ⟨-, rfl⟩
    · exact hkeep
    · rwa [State.emit_code, State.emit_config]

/-! ### Data memory -/

theorem arithExec_keeps_mem {fn : AluFn} {p : Place} {o : Operand} {w : Width} {wb : Bool} {n : Nat} {s u : State}
    (h : arithExec fn p o w wb n s = .next u) : u.mem = s.mem := by
  cases p with
  | mem m =>
    cases h
    exact s.halt_mem _
  | reg r => cases wb <;> cases h <;> simp

theorem branchExec_keeps_mem {b : BranchOp} {d : Byte} {n : Nat} {s u : State} (h : branchExec b d n s = .next u) :
    u.mem = s.mem := by
  rcases branchExec_cases b d n s with ⟨-, hb⟩ | ⟨-, -, hb⟩ | ⟨t, hb, -⟩ <;> cases hb.symm.trans h
  · exact s.halt_mem _
  · exact s.halt_mem _
  · rw [State.setIp_mem, State.writeCount_mem]

/-- R51, R64: an instruction that changes data memory is a mov whose destination is a memory operand. -/
theorem mov_mem_of_exec_mem_ne {i : Instr} {s u : State} (h : exec i s = .next u) (hne : u.mem ≠ s.mem) :
    i.op = .mov ∧ ∃ m, i.dst = some (.mem m) := by
  cases hop : i.op with
  | mov =>
    obtain ⟨w, p, o, -, hdst, -, he⟩ := exec_mov hop
    cases (he s).symm.trans h
    cases p with
    | reg r => exact absurd (by simp) hne
    | mem m => exact ⟨rfl, m, hdst⟩
  | arith a =>
    obtain ⟨w, p, o, -, -, -, he⟩ := exec_arith hop
    exact absurd (arithExec_keeps_mem ((he s).symm.trans h)) hne
  | branch b =>
    obtain ⟨d, -, -, he⟩ := exec_branch hop
    exact absurd (branchExec_keeps_mem ((he s).symm.trans h)) hne

/-- R151: an instruction that stops the CORE has written nothing. -/
theorem exec_halted_keeps_mem {i : Instr} {s u : State} {r : HaltReason} (hs : s.run = .running) (h : exec i s = .next u)
    (hu : u.run = .halted r) : u.mem = s.mem := by
  obtain ⟨t, ht, hcases⟩ := exec_next i s
  cases ht.symm.trans h
  rcases hcases with ⟨r', rfl, -⟩ | ⟨hrun, -⟩
  · exact s.halt_mem r'
  · cases hu.symm.trans (hrun.trans hs)

/-! ### The obligations -/

/-- Settles O21: every way a step can go keeps CODE and the parameters, and fetch depends on CODE and `ip` alone. -/
theorem programNeverChanges : Obligations.ProgramNeverChanges :=
  ⟨fun _ _ h => step_keeps_program h, fun s w m v => s.writeOp_fetch w (.mem m) v⟩

/-- Settles O47: a stop changes RUN alone, and an instruction that completes changes data memory only as a mov to it. -/
theorem memoryWrittenOnlyByMov : Obligations.MemoryWrittenOnlyByMov := by
  intro s t hs h hne
  rcases step_cases hs h with ⟨-, rfl⟩ | ⟨-, f, -, rfl⟩ | ⟨-, i, rest, u, hd, hu, ht⟩
  · exact absurd (s.halt_mem _) hne
  · exact absurd (s.halt_mem _) hne
  · rcases ht with ⟨r, hrun, rfl⟩ | ⟨hrun, rfl⟩
    · exact absurd (exec_halted_keeps_mem hs hu hrun) hne
    · obtain ⟨hop, m, hdst⟩ := mov_mem_of_exec_mem_ne hu hne
      exact ⟨i, rest, m, hd, hop, hdst, hrun⟩

end Sys2Proof.Machine
end

section
/-! The two round trips of the encoding, the length its first two bytes tell, and what each decode fault means
(spec/30_encoding.md R91 to R104). -/

namespace Sys2Proof

/-! ### The operation and the length of an arithmetic form (R93, R100) -/

@[simp] theorem ArithOp.rmInstr_op (op : ArithOp) (d : Dir) (w : Width) (reg : RegOp) (rm : RmOperand) :
    (op.rmInstr d w reg rm).op = .arith op := by
  cases op <;> rfl

@[simp] theorem ArithOp.immRmInstr_op (op : ArithOp) (s : Bool) (w : Width) (rm : RmOperand) (v : Word) :
    (op.immRmInstr s w rm v).op = .arith op := by
  cases op <;> rfl

@[simp] theorem ArithOp.accInstr_op (op : ArithOp) (w : Width) (v : Word) : (op.accInstr w v).op = .arith op := by
  cases op <;> rfl

@[simp] theorem ArithOp.rmInstr_len (op : ArithOp) (d : Dir) (w : Width) (reg : RegOp) (rm : RmOperand) :
    (op.rmInstr d w reg rm).len = 1 + 1 + rm.dispLen := by
  cases op <;> rfl

@[simp] theorem ArithOp.immRmInstr_len (op : ArithOp) (s : Bool) (w : Width) (rm : RmOperand) (v : Word) :
    (op.immRmInstr s w rm v).len = 1 + 1 + rm.dispLen + immLen s w := by
  cases op <;> rfl

@[simp] theorem ArithOp.accInstr_len (op : ArithOp) (w : Width) (v : Word) :
    (op.accInstr w v).len = 1 + immLen false w := by
  cases op <;> rfl

/-! ### The length (R100) -/

/-- R100: M is the displacement length the `mod` and `rm` fields of the encoded ModRegRm byte tell. -/
theorem dispLenOf_encodeModRegRm {w : Width} {rm : RmOperand} (hm : rm.wf w = true) (reg : BitVec 3) (rest : List Byte) :
    dispLenOf (modField ((encodeModRegRm reg rm ++ rest).headD 0#8)) (rmField ((encodeModRegRm reg rm ++ rest).headD 0#8)) =
      rm.dispLen := by
  simp only [encodeModRegRm, List.cons_append, List.headD_cons, modField_modRegRm, rmField_modRegRm,
    RmOperand.dispLen_eq hm]

/-- R100: the opcode byte of an encoding and the byte after it tell the instruction's length. -/
theorem len_eq_lenOfBytes {i : Instr} {b0 : Byte} {bs rest : List Byte} (hwf : i.wf = true)
    (hb : b0 :: bs = encode i ++ rest) : ∃ c, classify b0 = some c ∧ i.len = lenOfBytes c b0 (bs.headD 0#8) := by
  cases hop : i.op with
  | mov =>
    rcases mov_form hop with ⟨d, w, reg, rm, rfl⟩ | ⟨w, rm, v, rfl⟩ | ⟨w, reg, v, rfl⟩ <;>
      obtain ⟨h1, h2⟩ := Bool.and_eq_true_iff.1 hwf <;> obtain ⟨rfl, rfl⟩ := List.cons.inj hb
    · obtain ⟨hc, -, -⟩ := movRmOpcode_spec d w
      exact ⟨_, hc, by simp only [Instr.len, lenOfBytes, List.append_eq, dispLenOf_encodeModRegRm h2]⟩
    · obtain ⟨hc, hw⟩ := movImmRmOpcode_spec w
      exact ⟨_, hc, by simp only [Instr.len, lenOfBytes, List.append_eq, List.append_assoc,
        dispLenOf_encodeModRegRm h1, hw]⟩
    · obtain ⟨hc, hw, -⟩ := movImmRegOpcode_spec w reg.field
      exact ⟨_, hc, by simp only [Instr.len, lenOfBytes, hw]⟩
  | arith a =>
    rcases arith_form hop with ⟨d, w, reg, rm, rfl⟩ | ⟨s, w, rm, v, rfl⟩ | ⟨w, v, rfl⟩
    · obtain ⟨hc, -, -, -⟩ := arithRmOpcode_spec a d w
      obtain ⟨-, hm⟩ := Bool.and_eq_true_iff.1 ((a.rmInstr_wf d w reg rm).symm.trans hwf)
      rw [ArithOp.encode_rmInstr] at hb
      obtain ⟨rfl, rfl⟩ := List.cons.inj hb
      exact ⟨_, hc, by simp only [ArithOp.rmInstr_len, lenOfBytes, List.append_eq, dispLenOf_encodeModRegRm hm]⟩
    · obtain ⟨hc, hs, hw⟩ := arithImmOpcode_spec s w
      obtain ⟨hm, -⟩ := Bool.and_eq_true_iff.1 ((a.immRmInstr_wf s w rm v).symm.trans hwf)
      rw [ArithOp.encode_immRmInstr] at hb
      obtain ⟨rfl, rfl⟩ := List.cons.inj hb
      exact ⟨_, hc, by simp only [ArithOp.immRmInstr_len, lenOfBytes, List.append_eq, List.append_assoc,
        dispLenOf_encodeModRegRm hm, hs, hw]⟩
    · obtain ⟨hc, -, hw⟩ := accOpcode_spec a w
      rw [ArithOp.encode_accInstr] at hb
      obtain ⟨rfl, rfl⟩ := List.cons.inj hb
      exact ⟨_, hc, by simp only [ArithOp.accInstr_len, lenOfBytes, hw]⟩
  | branch b =>
    obtain ⟨d, rfl, hlen, -⟩ := Machine.exec_branch hop
    rw [BranchOp.encode_instr] at hb
    obtain ⟨rfl, rfl⟩ := List.cons.inj hb
    rcases b.opcode_spec with ⟨hc, -⟩ | ⟨hc, -⟩ <;> exact ⟨_, hc, hlen⟩

/-- R100: in `1 + M + D + I` the opcode byte never stands alone, M is at most 1, D and I at most 2. -/
theorem Instr.len_bounds (i : Instr) : 2 ≤ i.len ∧ i.len ≤ 6 := by
  cases hop : i.op with
  | mov =>
    rcases mov_form hop with ⟨d, w, reg, rm, rfl⟩ | ⟨w, rm, v, rfl⟩ | ⟨w, reg, v, rfl⟩ <;> simp only [Instr.len]
    · have := rm.dispLen_le
      omega
    · have := rm.dispLen_le
      have := immLen_bounds false w
      omega
    · have := immLen_bounds false w
      omega
  | arith a =>
    rcases arith_form hop with ⟨d, w, reg, rm, rfl⟩ | ⟨s, w, rm, v, rfl⟩ | ⟨w, v, rfl⟩
    · have := rm.dispLen_le
      rw [ArithOp.rmInstr_len]
      omega
    · have := rm.dispLen_le
      have := immLen_bounds s w
      rw [ArithOp.immRmInstr_len]
      omega
    · have := immLen_bounds false w
      rw [ArithOp.accInstr_len]
      omega
  | branch b =>
    obtain ⟨d, -, hlen, -⟩ := Machine.exec_branch hop
    omega

/-! ### The opcode bytes (R92, R93, R97) -/

/-- R97: the bytes the classification table selects. -/
theorem classify_ne_none_iff : ∀ b0 : Byte, classify b0 ≠ none ↔
    b0.toNat ≤ 0x05 ∨ (0x28 ≤ b0.toNat ∧ b0.toNat ≤ 0x2D) ∨ (0x38 ≤ b0.toNat ∧ b0.toNat ≤ 0x3D) ∨
      (0x70 ≤ b0.toNat ∧ b0.toNat ≤ 0x83) ∨ (0x88 ≤ b0.toNat ∧ b0.toNat ≤ 0x8B) ∨
      (0xB0 ≤ b0.toNat ∧ b0.toNat ≤ 0xBF) ∨ b0.toNat = 0xC6 ∨ b0.toNat = 0xC7 ∨
      (0xE0 ≤ b0.toNat ∧ b0.toNat ≤ 0xE3) := by
  decide

theorem classify_arithImmRm : ∀ b0 : Byte, 0x80 ≤ b0.toNat → b0.toNat ≤ 0x83 → classify b0 = some .arithImmRm := by
  decide

theorem classify_movImmRm : ∀ b0 : Byte, b0.toNat = 0xC6 ∨ b0.toNat = 0xC7 → classify b0 = some .movImmRm := by
  decide

/-- R92 rows 4 and 6: a byte of either pattern is of that row's class, unless its arithmetic code selects no operation. -/
theorem classify_arithCode : ∀ b0 : Byte, b0 &&& 0xC4#8 = 0x00#8 ∨ b0 &&& 0xC6#8 = 0x04#8 →
    (ArithOp.ofCode (opcodeArithCode b0) = none ∧ classify b0 = none) ∨
    ((ArithOp.ofCode (opcodeArithCode b0)).isSome ∧ (classify b0 = some .arithRm ∨ classify b0 = some .arithAcc)) := by
  decide

/-- R92 rows 4 and 6: a byte these rows select has an arithmetic code that selects an operation. -/
theorem arithCode_of_classify : ∀ b0 : Byte, classify b0 = some .arithRm ∨ classify b0 = some .arithAcc →
    ∃ op, ArithOp.ofCode (opcodeArithCode b0) = some op := by
  simp only [← Option.isSome_iff_exists]
  decide

/-! ### The operand decoders can only run out of bytes (R101) -/

theorem bind_ne_unsupported {α β : Type} {x : Except DecodeFault α} {f : α → Except DecodeFault β}
    (hx : x ≠ .error .unsupportedOpcode) (hf : ∀ a, f a ≠ .error .unsupportedOpcode) :
    (x >>= f) ≠ .error .unsupportedOpcode := by
  cases x with
  | error e =>
    intro h
    cases h
    exact hx rfl
  | ok a => exact hf a

theorem next8_ne_unsupported (bs : List Byte) : next8 bs ≠ .error .unsupportedOpcode := by
  cases bs <;> nofun

theorem next16_ne_unsupported (bs : List Byte) : next16 bs ≠ .error .unsupportedOpcode :=
  bind_ne_unsupported (next8_ne_unsupported _) fun _ => bind_ne_unsupported (next8_ne_unsupported _) fun _ => nofun

theorem decodeRmOperand_ne_unsupported (mode : BitVec 2) (rm : BitVec 3) (w : Width) (bs : List Byte) :
    decodeRmOperand mode rm w bs ≠ .error .unsupportedOpcode := by
  rcases mod_cases mode with rfl | rfl | rfl | rfl
  · nofun
  · simp only [decodeRmOperand]
    split
    · exact bind_ne_unsupported (next16_ne_unsupported _) fun _ => nofun
    · nofun
  · exact bind_ne_unsupported (next8_ne_unsupported _) fun _ => nofun
  · exact bind_ne_unsupported (next16_ne_unsupported _) fun _ => nofun

theorem decodeImm_ne_unsupported : ∀ (s : Bool) (w : Width) (bs : List Byte),
    decodeImm s w bs ≠ .error .unsupportedOpcode
  | false, .word, bs => next16_ne_unsupported bs
  | true, .word, bs | false, .byte, bs | true, .byte, bs =>
    bind_ne_unsupported (next8_ne_unsupported bs) fun _ => nofun

theorem decodeRm_ne_unsupported (mk : Dir → Width → RegOp → RmOperand → Instr) (b0 : Byte) (bs : List Byte) :
    decodeRm mk b0 bs ≠ .error .unsupportedOpcode :=
  bind_ne_unsupported (next8_ne_unsupported bs) fun _ =>
    bind_ne_unsupported (decodeRmOperand_ne_unsupported _ _ _ _) fun _ => nofun

theorem decodeImmRm_ne_unsupported (mk : RmOperand → Word → Instr) (s : Bool) (w : Width) (b1 : Byte) (bs : List Byte) :
    decodeImmRm mk s w b1 bs ≠ .error .unsupportedOpcode :=
  bind_ne_unsupported (decodeRmOperand_ne_unsupported _ _ _ _) fun _ =>
    bind_ne_unsupported (decodeImm_ne_unsupported _ _ _) fun _ => nofun

/-! ### The faults of a class's case (R93, R94, R101) -/

/-- R93, R94: the second byte's `reg` field selects nothing in the class. Only the two immediate to register/memory classes
check it. -/
def OpClass.rejects : OpClass → Byte → Prop
  | .movImmRm, b1 => regField b1 ≠ 0b000#3
  | .arithImmRm, b1 => ArithOp.ofCode (regField b1) = none
  | .movRm, _ | .movImmReg, _ | .arithRm, _ | .arithAcc, _ | .jcc, _ | .loop, _ => False

/-- R101: every class needs a second byte. -/
theorem decodeClass_nil {c : OpClass} {b0 : Byte} (hc : classify b0 = some c) :
    decodeClass c b0 [] = .error .truncatedStream := by
  cases c with
  | arithRm =>
    obtain ⟨op, hop⟩ := arithCode_of_classify b0 (.inl hc)
    simp only [decodeClass, hop]
    rfl
  | arithAcc =>
    obtain ⟨op, hop⟩ := arithCode_of_classify b0 (.inr hc)
    simp only [decodeClass, hop]
    cases Width.ofBit (bitAt b0 0) <;> rfl
  | movImmReg =>
    simp only [decodeClass]
    cases Width.ofBit (bitAt b0 3) <;> rfl
  | movRm | movImmRm | arithImmRm | jcc | loop => rfl

/-- R93, R94: once the second byte is read, a class's case faults with UnsupportedOpcode exactly when it rejects that byte,
whatever bytes follow or are missing. -/
theorem decodeClass_cons_eq_unsupported_iff {c : OpClass} {b0 : Byte} (hc : classify b0 = some c) (b1 : Byte)
    (bs : List Byte) : decodeClass c b0 (b1 :: bs) = .error .unsupportedOpcode ↔ c.rejects b1 := by
  cases c with
  | movImmRm =>
    simp only [decodeClass, next8_cons, bind_ok, OpClass.rejects]
    split
    · exact iff_of_false (decodeImmRm_ne_unsupported _ _ _ _ _) (not_not.2 ‹_›)
    · exact iff_of_true rfl ‹_›
  | arithImmRm =>
    simp only [decodeClass, next8_cons, bind_ok, OpClass.rejects]
    cases ArithOp.ofCode (regField b1) with
    | some op => exact iff_of_false (decodeImmRm_ne_unsupported _ _ _ _ _) nofun
    | none => exact iff_of_true rfl rfl
  | arithRm =>
    obtain ⟨op, hop⟩ := arithCode_of_classify b0 (.inl hc)
    simp only [decodeClass, hop]
    exact iff_of_false (decodeRm_ne_unsupported _ _ _) id
  | arithAcc =>
    obtain ⟨op, hop⟩ := arithCode_of_classify b0 (.inr hc)
    simp only [decodeClass, hop]
    exact iff_of_false (bind_ne_unsupported (decodeImm_ne_unsupported _ _ _) fun _ => nofun) id
  | movRm => exact iff_of_false (decodeRm_ne_unsupported _ _ _) id
  | movImmReg => exact iff_of_false (bind_ne_unsupported (decodeImm_ne_unsupported _ _ _) fun _ => nofun) id
  | jcc | loop => exact iff_of_false nofun id

/-- R97: a byte of no class faults whatever follows it. -/
theorem decode_of_classify_none {b0 : Byte} (h : classify b0 = none) (bs : List Byte) :
    decode (b0 :: bs) = .error .unsupportedOpcode := by
  rw [decode_cons, h]

/-- R93, R94, R97: UnsupportedOpcode is decided by the first two bytes, so more of the stream does not undo it. -/
theorem decode_unsupported_append {bs : List Byte} (h : decode bs = .error .unsupportedOpcode) (more : List Byte) :
    decode (bs ++ more) = .error .unsupportedOpcode := by
  cases bs with
  | nil => cases h
  | cons b0 bs =>
    cases hc : classify b0 with
    | none => exact decode_of_classify_none hc _
    | some c =>
      rw [decode_of_classify hc] at h
      rw [List.cons_append, decode_of_classify hc]
      cases bs with
      | nil => cases (decodeClass_nil hc).symm.trans h
      | cons b1 bs =>
        exact (decodeClass_cons_eq_unsupported_iff hc b1 _).2 ((decodeClass_cons_eq_unsupported_iff hc b1 bs).1 h)

/-! ### The operation an arithmetic code selects (R93) -/

theorem decodeClass_arithImmRm_op {b0 b1 : Byte} {bs rest : List Byte} {i : Instr}
    (h : decodeClass .arithImmRm b0 (b1 :: bs) = .ok (i, rest)) :
    ∃ a, ArithOp.ofCode (regField b1) = some a ∧ i.op = .arith a := by
  simp only [decodeClass, next8_cons, bind_ok] at h
  split at h
  · rename_i op hop
    obtain ⟨rm, v, rfl, -, -, -⟩ := decodeImmRm_eq_ok h
    exact ⟨op, hop, ArithOp.immRmInstr_op ..⟩
  · cases h

theorem decodeClass_arithRm_op {b0 : Byte} {bs rest : List Byte} {i : Instr}
    (h : decodeClass .arithRm b0 bs = .ok (i, rest)) :
    ∃ a, ArithOp.ofCode (opcodeArithCode b0) = some a ∧ i.op = .arith a := by
  simp only [decodeClass] at h
  split at h
  · rename_i op hop
    obtain ⟨reg, rm, rfl, -, -, -⟩ := decodeRm_eq_ok h
    exact ⟨op, hop, ArithOp.rmInstr_op ..⟩
  · cases h

theorem decodeClass_arithAcc_op {b0 : Byte} {bs rest : List Byte} {i : Instr}
    (h : decodeClass .arithAcc b0 bs = .ok (i, rest)) :
    ∃ a, ArithOp.ofCode (opcodeArithCode b0) = some a ∧ i.op = .arith a := by
  simp only [decodeClass] at h
  split at h
  · rename_i op hop
    obtain ⟨⟨v, bs'⟩, -, h⟩ := bind_eq_ok.1 h
    cases h
    exact ⟨op, hop, ArithOp.accInstr_op ..⟩
  · cases h

/-! ### The obligations -/

/-- Settles O1: one round trip per class, assembled in `decode_encode`. -/
theorem encodedInstructionDecodesBack : Obligations.EncodedInstructionDecodesBack :=
  fun _ rest h => decode_encode h rest

/-- Settles O2: the inversion of each class's case, assembled in `decode_eq_ok`. -/
theorem decodedBytesAreTheEncoding : Obligations.DecodedBytesAreTheEncoding :=
  fun _ _ _ h => decode_eq_ok h

/-- Settles O3: the bytes read are the encoding, whose first two bytes tell its length and which decodes back before any
other bytes. -/
theorem lengthDependsOnOwnBytes : Obligations.LengthDependsOnOwnBytes := by
  intro b0 bs i rest h
  obtain ⟨hwf, hb⟩ := decode_eq_ok h
  obtain ⟨hlo, hhi⟩ := i.len_bounds
  refine ⟨len_eq_lenOfBytes hwf hb, hlo, hhi, decode_length h, fun rest' => ?_⟩
  rw [hb, List.take_left' (encode_length i)]
  exact decode_encode hwf rest'

/-- Settles O4: the listed bytes are the classified ones, a class needs a second byte, and a byte of no class faults. -/
theorem opcodeBytesAccepted : Obligations.OpcodeBytesAccepted := by
  intro b0
  split
  · rename_i hlisted
    have hne := (classify_ne_none_iff b0).2 hlisted
    obtain ⟨c, hc⟩ := Option.ne_none_iff_exists'.1 hne
    exact ⟨hne, (decode_of_classify hc []).trans (decodeClass_nil hc)⟩
  · rename_i hlisted
    have hnone := not_not.1 (mt (classify_ne_none_iff b0).1 hlisted)
    exact ⟨hnone, decode_of_classify_none hnone⟩

/-- Settles O5: the class of each opcode byte, then what that class's case rejects and which operation it selects. -/
theorem regFieldSelectsTheOperation : Obligations.RegFieldSelectsTheOperation := by
  refine ⟨by decide, fun b0 hb hcode => ?_, fun b0 b1 rest hlo hhi => ?_, fun b0 b1 rest hb => ?_,
    fun b0 b1 rest rest' i h => ⟨fun hlo hhi => ?_, fun hb => ?_⟩⟩
  · rcases classify_arithCode b0 hb with ⟨-, hc⟩ | ⟨hsome, -⟩
    · exact hc
    · simp [hcode] at hsome
  · have hc := classify_arithImmRm b0 hlo hhi
    rw [decode_of_classify hc]
    exact decodeClass_cons_eq_unsupported_iff hc b1 rest
  · have hc := classify_movImmRm b0 hb
    rw [decode_of_classify hc]
    exact decodeClass_cons_eq_unsupported_iff hc b1 rest
  · rw [decode_of_classify (classify_arithImmRm b0 hlo hhi)] at h
    exact decodeClass_arithImmRm_op h
  · rcases classify_arithCode b0 hb with ⟨-, hc⟩ | ⟨-, hc | hc⟩
    · cases (decode_of_classify_none hc _).symm.trans h
    · exact decodeClass_arithRm_op ((decode_of_classify hc _).symm.trans h)
    · exact decodeClass_arithAcc_op ((decode_of_classify hc _).symm.trans h)

/-- Settles O6: neither a decoded instruction nor UnsupportedOpcode changes when the missing bytes are put back, and with
them the whole encoding decodes with nothing left over. -/
theorem truncatedEncodingFaults : Obligations.TruncatedEncodingFaults := by
  intro i n hwf hn
  have hwhole : decode ((encode i).take n ++ (encode i).drop n) = .ok (i, []) := by
    rw [List.take_append_drop]
    simpa using decode_encode hwf []
  cases hd : decode ((encode i).take n) with
  | ok p =>
    have hext := (decode_append hd ((encode i).drop n)).symm.trans hwhole
    simp only [Except.ok.injEq, Prod.mk.injEq, List.append_eq_nil_iff, List.drop_eq_nil_iff] at hext
    omega
  | error f =>
    cases f with
    | truncatedStream => rfl
    | unsupportedOpcode => cases (decode_unsupported_append hd _).symm.trans hwhole

/-- Settles O7: the decoder evaluated on each vector. -/
theorem decodeVectors : Obligations.DecodeVectors := by
  unfold Obligations.DecodeVectors
  decide

end Sys2Proof
end

section
/-! The ALU: its results and its zero and sign bits as numbers, at both widths and under both settings of BYTE_ARITH
(spec/40_datapath.md R137 to R140). -/

namespace Sys2Proof.Machine

/-! ### Which computation the ALU runs (R137) -/

theorem alu_word (c : Config) (fn : AluFn) (a b : Word) : alu c fn .word a b = aluWord fn a b := rfl

theorem alu_byte_of_native8 {c : Config} (h : c.byteArith = .native8) (fn : AluFn) (a b : Word) :
    alu c fn .byte a b = aluNative8 fn a b := by
  simp only [alu, h]

theorem alu_byte_of_wide16 {c : Config} (h : c.byteArith = .wide16) (fn : AluFn) (a b : Word) :
    alu c fn .byte a b = aluWide16 fn a b := by
  simp only [alu, h]

/-! ### Results -/

theorem aluWord_add_toNat (a b : Word) : (aluWord .add a b).r.toNat = (a.toNat + b.toNat) % 65536 :=
  BitVec.toNat_add a b

theorem aluWord_sub_toNat (a b : Word) : (aluWord .sub a b).r.toNat = (a.toNat + 65536 - b.toNat) % 65536 := by
  have := b.isLt
  rw [show (aluWord .sub a b).r = a - b from rfl, BitVec.toNat_sub]
  omega

/-- R9, R140: the number of a byte operand as the ALU takes it. -/
theorem zext16_lowByte_toNat (v : Word) : (zext16 (lowByte v)).toNat = v.toNat % 256 :=
  (zext16_toNat _).trans (lowByte_toNat v)

theorem aluNative8_toNat (fn : AluFn) (a b : Word) :
    (aluNative8 fn a b).r.toNat = (fn.byte (lowByte a) (lowByte b)).toNat :=
  zext16_toNat _

theorem aluNative8_add_toNat (a b : Word) :
    (aluNative8 .add a b).r.toNat = (a.toNat % 256 + b.toNat % 256) % 256 := by
  rw [aluNative8_toNat, AluFn.byte, BitVec.toNat_add, lowByte_toNat, lowByte_toNat]

theorem aluNative8_sub_toNat (a b : Word) :
    (aluNative8 .sub a b).r.toNat = (a.toNat % 256 + 256 - b.toNat % 256) % 256 := by
  rw [aluNative8_toNat, AluFn.byte, BitVec.toNat_sub, lowByte_toNat, lowByte_toNat]
  omega

/-- R140: the sum of two bytes does not reach 2^16. -/
theorem aluWide16_add_toNat (a b : Word) : (aluWide16 .add a b).r.toNat = a.toNat % 256 + b.toNat % 256 := by
  rw [aluWide16, aluWord_add_toNat, zext16_lowByte_toNat, zext16_lowByte_toNat]
  omega

theorem aluWide16_sub_toNat (a b : Word) :
    (aluWide16 .sub a b).r.toNat = (a.toNat % 256 + 65536 - b.toNat % 256) % 65536 := by
  rw [aluWide16, aluWord_sub_toNat, zext16_lowByte_toNat, zext16_lowByte_toNat]

/-! ### The zero and sign bits -/

theorem beq_zero_iff_toNat {n : Nat} (x : BitVec n) : (x == 0#n) = true ↔ x.toNat = 0 := by
  rw [beq_iff_eq, ← BitVec.toNat_inj, BitVec.toNat_zero]

/-- The top bit as a comparison of numbers. -/
theorem getLsbD_last_iff_toNat {n : Nat} (x : BitVec n) : x.getLsbD (n - 1) = true ↔ 2 ^ (n - 1) ≤ x.toNat := by
  rw [← BitVec.msb_eq_getLsbD_last, BitVec.msb_eq_decide, decide_eq_true_iff]

theorem aluWord_z_iff (fn : AluFn) (a b : Word) : (aluWord fn a b).z = true ↔ (aluWord fn a b).r.toNat = 0 :=
  beq_zero_iff_toNat _

theorem aluWord_s_iff (fn : AluFn) (a b : Word) : (aluWord fn a b).s = true ↔ 32768 ≤ (aluWord fn a b).r.toNat :=
  getLsbD_last_iff_toNat (fn.word a b)

theorem aluNative8_z_iff (fn : AluFn) (a b : Word) :
    (aluNative8 fn a b).z = true ↔ (aluNative8 fn a b).r.toNat = 0 := by
  rw [aluNative8_toNat]
  exact beq_zero_iff_toNat _

theorem aluNative8_s_iff (fn : AluFn) (a b : Word) :
    (aluNative8 fn a b).s = true ↔ 128 ≤ (aluNative8 fn a b).r.toNat := by
  rw [aluNative8_toNat]
  exact getLsbD_last_iff_toNat (fn.byte (lowByte a) (lowByte b))

/-- R140: an add of two bytes gives 0 only from two zeros. -/
theorem aluWide16_add_z_iff (a b : Word) :
    (aluWide16 .add a b).z = true ↔ a.toNat % 256 = 0 ∧ b.toNat % 256 = 0 := by
  rw [aluWide16, aluWord_z_iff, ← aluWide16, aluWide16_add_toNat, Nat.add_eq_zero_iff]

/-- R140: an add of two bytes stays below 2^15. -/
theorem aluWide16_add_s (a b : Word) : (aluWide16 .add a b).s = false := by
  rw [Bool.eq_false_iff, Ne, aluWide16, aluWord_s_iff, ← aluWide16, aluWide16_add_toNat]
  omega

/-- R140: a difference of two bytes is negative at 16 bits exactly when it borrows. -/
theorem aluWide16_sub_s_iff (a b : Word) : (aluWide16 .sub a b).s = true ↔ a.toNat % 256 < b.toNat % 256 := by
  rw [aluWide16, aluWord_s_iff, ← aluWide16, aluWide16_sub_toNat]
  omega

/-! ### The byte the two settings agree on -/

/-- The low byte of a 16-bit result depends on the low bytes of the operands alone. -/
theorem lowByte_aluFn_word (fn : AluFn) (a b : Word) : lowByte (fn.word a b) = fn.byte (lowByte a) (lowByte b) := by
  apply BitVec.eq_of_toNat_eq
  cases fn with
  | pass => rfl
  | add =>
    rw [AluFn.word, AluFn.byte, lowByte_toNat, BitVec.toNat_add, BitVec.toNat_add, lowByte_toNat, lowByte_toNat]
    omega
  | sub =>
    rw [AluFn.word, AluFn.byte, lowByte_toNat, BitVec.toNat_sub, BitVec.toNat_sub, lowByte_toNat, lowByte_toNat]
    omega

/-- D5: under either setting the low byte is that of the operation at 8 bits. -/
theorem lowByte_alu_byte (c : Config) (fn : AluFn) (a b : Word) :
    lowByte (alu c fn .byte a b).r = fn.byte (lowByte a) (lowByte b) := by
  cases h : c.byteArith with
  | native8 =>
    rw [alu_byte_of_native8 h]
    exact lowByte_zext16 _
  | wide16 =>
    rw [alu_byte_of_wide16 h]
    exact (lowByte_aluFn_word fn _ _).trans (by rw [lowByte_zext16, lowByte_zext16])

/-! ### The obligations -/

/-- Settles O36: the sum and the difference of `BitVec` as numbers, and the flags of a 16-bit result. -/
theorem aluWordResult : Obligations.AluWordResult := by
  intro c a b
  simp only [alu_word]
  exact ⟨aluWord_add_toNat a b, aluWord_sub_toNat a b, rfl,
    fun fn => ⟨aluWord_z_iff fn a b, aluWord_s_iff fn a b⟩⟩

/-- Settles O37: the same at 8 bits, on the low bytes. -/
theorem aluByteResultNative : Obligations.AluByteResultNative := by
  intro c a b h
  simp only [alu_byte_of_native8 h]
  exact ⟨aluNative8_add_toNat a b, aluNative8_sub_toNat a b, zext16_lowByte_toNat b,
    fun fn => ⟨aluNative8_z_iff fn a b, aluNative8_s_iff fn a b⟩⟩

/-- Settles O38: the 16-bit ALU on operands below 256; the register then reads back the byte written to its slice. -/
theorem aluByteResultWide : Obligations.AluByteResultWide := by
  intro c a b h
  simp only [alu_byte_of_wide16 h]
  refine ⟨aluWide16_add_toNat a b, aluWide16_sub_toNat a b, zext16_lowByte_toNat b,
    fun fn => ⟨aluWord_z_iff fn _ _, aluWord_s_iff fn _ _⟩, aluWide16_add_z_iff a b, aluWide16_add_s a b,
    aluWide16_sub_s_iff a b, fun fn r s hr => ?_⟩
  rw [State.writeReg_regs, s.regs.read_write_same r.index r.slice, if_neg hr]
  exact zext16_lowByte_toNat _

/-- Settles O39: under each setting the low byte is the operation's at 8 bits. -/
theorem byteArithSettingsAgreeOnByte : Obligations.ByteArithSettingsAgreeOnByte := fun c c' fn a b =>
  (lowByte_alu_byte c fn a b).trans (lowByte_alu_byte c' fn a b).symm

end Sys2Proof.Machine
end

section
/-! Operand resolution: the effective address, the adder that computes it, and a byte-width memory source
(spec/40_datapath.md R131 to R134). -/

namespace Sys2Proof.Machine

/-! ### The effective address (R131) -/

theorem State.ea_regs (s : State) (b : Base) (d : Word) : s.ea ⟨.regs b, d⟩ = s.baseValue b + d := rfl

/-- R131: the effective address reads no state but the registers. -/
theorem State.ea_of_regs {s t : State} (h : t.regs = s.regs) (m : MemOperand) : t.ea m = s.ea m := by
  obtain ⟨base, d⟩ := m
  cases base with
  | direct => rfl
  | regs b => cases b <;> simp [State.ea_regs, State.baseValue, State.reg, h]

/-- R131: a base of two registers wraps once, after the whole sum. -/
theorem toNat_add_add (x y d : Word) : (x + y + d).toNat = (x.toNat + y.toNat + d.toNat) % 65536 := by
  rw [BitVec.toNat_add, BitVec.toNat_add, Nat.mod_add_mod]

/-! ### The three-input adder (R132) -/

/-- R132: the A and B inputs of a base expression sum to its value, but for BP with mod = 00, which means DIRECT. -/
theorem State.eaA_add_eaB (s : State) {mode : BitVec 2} {b : Base} (h : b = .bp → mode ≠ 0b00#2) :
    s.eaA mode b.field + s.eaB b.field = s.baseValue b := by
  cases b with
  | bp => simp [State.eaA, State.eaB, State.baseValue, Base.field, h]
  | _ => simp [State.eaA, State.eaB, State.baseValue, Base.field]

/-- R132, R80: for DIRECT the A and B inputs are both 0. -/
theorem State.eaA_add_eaB_direct (s : State) : s.eaA 0b00#2 0b110#3 + s.eaB 0b110#3 = 0#16 := by
  simp [State.eaA, State.eaB]

/-- R132: the D input is the displacement of the decoded operand. -/
theorem eaD_dispBytes (m : MemForm) : eaD m.modBits m.rmBits m.dispBytes = m.operand.disp := by
  cases m with
  | direct addr => exact joinBytes_highByte_lowByte addr
  | plain b => rfl
  | disp8 b d => rfl
  | disp16 b d => exact joinBytes_highByte_lowByte d

/-! ### A byte-width memory source (R134) -/

theorem State.readOp_byte_mem (s : State) (m : MemOperand) :
    s.readOp .byte (.mem m) = zext16 (s.memRead1 (s.ea m)) := by
  rw [State.readOp, State.memRead2, lowByte_joinBytes]

/-! ### The obligations -/

/-- Settles O28: each base expression's value plus the displacement, as a number. -/
theorem effectiveAddressSum : Obligations.EffectiveAddressSum := fun _ d =>
  ⟨toNat_add_add _ _ d, toNat_add_add _ _ d, toNat_add_add _ _ d, toNat_add_add _ _ d, BitVec.toNat_add _ d,
    BitVec.toNat_add _ d, BitVec.toNat_add _ d, BitVec.toNat_add _ d, rfl⟩

/-- Settles O29: D is the operand's displacement (`eaD_dispBytes`), and A + B is the base's value, or 0 for DIRECT. -/
theorem adderGivesEffectiveAddress : Obligations.AdderGivesEffectiveAddress := by
  intro s m hwf
  rw [State.eaAdder, eaD_dispBytes]
  cases m with
  | direct addr => exact (congrArg (· + addr) s.eaA_add_eaB_direct).trans (BitVec.zero_add addr)
  | plain b =>
    have hb : b ≠ .bp := by
      rintro rfl
      cases hwf
    exact congrArg (· + 0#16) (s.eaA_add_eaB fun h => absurd h hb)
  | disp8 b d => exact congrArg (· + sext16 d) (s.eaA_add_eaB (mode := 0b01#2) fun _ => by decide)
  | disp16 b d => exact congrArg (· + d) (s.eaA_add_eaB (mode := 0b10#2) fun _ => by decide)

/-- Settles O27: the source is the byte at EA (`readOp_byte_mem`), and EA depends on the registers alone. -/
theorem byteSourceIgnoresNextByte : Obligations.ByteSourceIgnoresNextByte := by
  intro s t m hregs hbyte
  have hea : t.ea m = s.ea m := State.ea_of_regs hregs m
  rw [t.readOp_byte_mem, s.readOp_byte_mem, hea, hbyte]
  exact ⟨rfl, zext16_toNat _⟩

end Sys2Proof.Machine
end

section
/-! What one step runs, and what it writes of the registers and the flags (spec/40_datapath.md R142, R150, R153). -/

namespace Sys2Proof.Machine

/-! ### The step of a decoded instruction (R150) -/

/-- R101: what decodes has at least one byte, so `ip` is not at the end of the stream. -/
theorem atEnd_of_decode {s : State} {i : Instr} {rest : List Byte} (h : decode s.fetch = .ok (i, rest)) :
    s.atEnd = false := by
  rw [Bool.eq_false_iff]
  intro hend
  have hip : s.ip = s.code.length := by simpa [State.atEnd] using hend
  rw [State.fetch, hip, List.drop_length] at h
  cases h

theorem step_of_decode {s : State} {i : Instr} {rest : List Byte} (hr : s.run = .running)
    (hd : decode s.fetch = .ok (i, rest)) : step s = finishStep i s (exec i s) := by
  rw [step, hr]
  simp [atEnd_of_decode hd, hd]

theorem finishStep_of_running {i : Instr} {s u : State} (h : u.run = .running) :
    finishStep i s (.next u) = .next (u.emit (traceRecord i s u)) := by
  rw [finishStep, h]

theorem finishStep_of_ne_running {i : Instr} {s u : State} (h : u.run ≠ .running) :
    finishStep i s (.next u) = .next u := by
  rw [finishStep]
  cases hu : u.run with
  | running => exact absurd hu h
  | halted r => rfl

/-- R150, R151: a step stops the CORE where it stands, or leaves the registers, the flags and RUN as the instruction
decoded at `ip` does. -/
theorem step_halt_or_exec {s t : State} (h : step s = .next t) :
    (∃ r, t = s.halt r) ∨
    ∃ i rest u, decode s.fetch = .ok (i, rest) ∧ exec i s = .next u ∧
      t.regs = u.regs ∧ t.zf = u.zf ∧ t.sf = u.sf ∧ t.run = u.run := by
  rcases step_cases (running_of_step h) h with ⟨-, ht⟩ | ⟨-, f, -, ht⟩ | ⟨-, i, rest, u, hd, hu, ht⟩
  · exact .inl ⟨_, ht⟩
  · exact .inl ⟨_, ht⟩
  · refine .inr ⟨i, rest, u, hd, hu, ?_⟩
    rcases ht with ⟨r, -, rfl⟩ | ⟨-, rfl⟩ <;> simp

/-! ### Registers: at most one is written (R153) -/

/-- Every register but `r` holds in `t` what it held in `s`. -/
def State.sameRegsExcept (s t : State) (r : Reg) : Prop := ∀ q, q ≠ r → t.reg q = s.reg q

/-- R135: the write of an operand writes at most the register it names. -/
theorem State.writeOp_oneReg (s : State) (w : Width) (p : Place) (v : Word) :
    ∃ r, s.sameRegsExcept (s.writeOp w p v) r := by
  cases p with
  | reg r => exact ⟨r.index, fun q hq => s.writeReg_reg_other hq v⟩
  | mem m => exact ⟨.ax, fun q _ => s.store_reg w _ v q⟩

theorem arithExec_oneReg {fn : AluFn} {p : Place} {o : Operand} {w : Width} {wb : Bool} {n : Nat} {s u : State}
    (h : arithExec fn p o w wb n s = .next u) : ∃ r, s.sameRegsExcept u r := by
  cases p with
  | mem m =>
    cases h
    exact ⟨.ax, fun _ _ => rfl⟩
  | reg r =>
    refine ⟨r.index, fun q hq => ?_⟩
    cases wb with
    | false =>
      cases h
      rfl
    | true =>
      cases h
      exact s.writeReg_reg_other hq _

/-- R223: a branch writes at most CX. -/
theorem branchExec_oneReg {b : BranchOp} {d : Byte} {n : Nat} {s u : State} (h : branchExec b d n s = .next u) :
    s.sameRegsExcept u .cx := by
  rcases branchExec_cases b d n s with ⟨-, hb⟩ | ⟨-, -, hb⟩ | ⟨t, hb, -⟩ <;> cases hb.symm.trans h
  · exact fun _ _ => rfl
  · exact fun _ _ => rfl
  · exact fun q hq => s.writeCount_reg_other hq _

theorem exec_oneReg {i : Instr} {s u : State} (h : exec i s = .next u) : ∃ r, s.sameRegsExcept u r := by
  cases hop : i.op with
  | mov =>
    obtain ⟨w, p, o, -, -, -, he⟩ := exec_mov hop
    cases (he s).symm.trans h
    exact s.writeOp_oneReg w p _
  | arith a =>
    obtain ⟨w, p, o, -, -, -, he⟩ := exec_arith hop
    exact arithExec_oneReg ((he s).symm.trans h)
  | branch b =>
    obtain ⟨d, -, -, he⟩ := exec_branch hop
    exact ⟨.cx, branchExec_oneReg ((he s).symm.trans h)⟩

theorem step_oneReg {s t : State} (h : step s = .next t) : ∃ r, s.sameRegsExcept t r := by
  rcases step_halt_or_exec h with ⟨r, rfl⟩ | ⟨i, rest, u, -, hu, hregs, -⟩
  · exact ⟨.ax, fun _ _ => rfl⟩
  · obtain ⟨r, hr⟩ := exec_oneReg hu
    refine ⟨r, fun q hq => ?_⟩
    rw [State.reg, hregs]
    exact hr q hq

/-! ### Flags: written by add, sub and cmp alone (R142) -/

theorem fnOf_eq_ite (a : ArithOp) : fnOf a = if a = .add then AluFn.add else AluFn.sub := by
  cases a <;> rfl

/-- R189: an arithmetic instruction stops the CORE where it stands, or completes with the ALU's flags. -/
theorem exec_arith_flags {i : Instr} {a : ArithOp} {s u : State} (hop : i.op = .arith a) (h : exec i s = .next u) :
    (∃ r, u = s.halt r) ∨
    ∃ w r o, i.width = some w ∧ i.dst = some (.reg r) ∧ i.src = some o ∧ u.run = s.run ∧
      u.zf = (alu s.config (fnOf a) w (s.regs.read r) (s.readOp w o)).z ∧
      u.sf = (alu s.config (fnOf a) w (s.regs.read r) (s.readOp w o)).s := by
  obtain ⟨w, p, o, hw, hdst, hsrc, he⟩ := exec_arith hop
  rw [he s] at h
  cases p with
  | mem m =>
    cases h
    exact .inl ⟨_, rfl⟩
  | reg r =>
    cases h
    refine .inr ⟨w, r, o, hw, hdst, hsrc, ?_, rfl, rfl⟩
    cases writesBack a <;> rfl

theorem branchExec_keeps_flags {b : BranchOp} {d : Byte} {n : Nat} {s u : State} (h : branchExec b d n s = .next u) :
    s.sameFlags u := by
  rcases branchExec_cases b d n s with ⟨-, hb⟩ | ⟨-, -, hb⟩ | ⟨t, hb, -⟩ <;> cases hb.symm.trans h
  · exact ⟨s.halt_zf _, s.halt_sf _⟩
  · exact ⟨s.halt_zf _, s.halt_sf _⟩
  · exact ⟨s.writeCount_zf _, s.writeCount_sf _⟩

/-- R142: an instruction other than an add, sub or cmp that completes leaves the flags alone. -/
theorem exec_keeps_flags {i : Instr} {s u : State} (hs : s.run = .running) (h : exec i s = .next u)
    (hnot : ∀ a, i.op = .arith a → u.run ≠ .running) : s.sameFlags u := by
  cases hop : i.op with
  | mov =>
    obtain ⟨w, p, o, -, -, -, he⟩ := exec_mov hop
    cases (he s).symm.trans h
    exact ⟨s.writeOp_zf w p _, s.writeOp_sf w p _⟩
  | arith a =>
    rcases exec_arith_flags hop h with ⟨r, rfl⟩ | ⟨w, r, o, -, -, -, hrun, -, -⟩
    · exact ⟨s.halt_zf r, s.halt_sf r⟩
    · exact absurd (hrun.trans hs) (hnot a hop)
  | branch b =>
    obtain ⟨d, -, -, he⟩ := exec_branch hop
    exact branchExec_keeps_flags ((he s).symm.trans h)

/-! ### The obligations -/

/-- Settles O8: the step is `finishStep` of the decoded instruction's answer, which is a next state (`exec_next`). -/
theorem stepRunsDecodedInstruction : Obligations.StepRunsDecodedInstruction := by
  intro s i rest hr hd
  obtain ⟨t, ht, -⟩ := exec_next i s
  have hstep : step s = finishStep i s (.next t) := ht ▸ step_of_decode hr hd
  exact ⟨t, ht, fun hrun => hstep.trans (finishStep_of_running hrun),
    fun hrun => hstep.trans (finishStep_of_ne_running hrun)⟩

/-- Settles O32: both changed registers are the one a step writes (`step_oneReg`). -/
theorem oneRegisterPerStep : Obligations.OneRegisterPerStep := by
  intro s t q q' h hq hq'
  obtain ⟨r, hr⟩ := step_oneReg h
  have heq : q = r := not_imp_comm.1 (hr q) hq
  have heq' : q' = r := not_imp_comm.1 (hr q') hq'
  exact heq.trans heq'.symm

/-- Settles O46: a step that keeps running has run the decoded instruction, whose flags are `exec_arith_flags` or, for every
other one, `exec_keeps_flags`. -/
theorem flagsWrittenOnlyByArithmetic : Obligations.FlagsWrittenOnlyByArithmetic := by
  intro s t hs h
  rcases step_halt_or_exec h with ⟨r, rfl⟩ | ⟨i, rest, u, hd, hu, -, hzf, hsf, hrun⟩
  · exact ⟨fun _ _ _ _ _ hr => (nomatch hr), fun _ => ⟨s.halt_zf r, s.halt_sf r⟩⟩
  · rw [State.sameFlags, hzf, hsf, hrun]
    refine ⟨fun j rest' a hd' hop hur => ?_, fun hnot => exec_keeps_flags hs hu fun a => hnot i rest a hd⟩
    cases hd.symm.trans hd'
    rcases exec_arith_flags hop hu with ⟨r, rfl⟩ | ⟨w, r, o, hw, hdst, hsrc, -, hflags⟩
    · cases hur
    · exact ⟨w, r, o, _, hw, hdst, hsrc, fnOf_eq_ite a, hflags⟩

end Sys2Proof.Machine
end

section
/-! The mov family: what each form leaves of a register or memory destination, and the byte-width store under both settings
of BYTE_STORE (spec/41_mov.md R160 to R163). -/

namespace Sys2Proof.Machine

/-! ### Which `movExec` each form runs, with R100's length of the form written out -/

theorem exec_movRmReg (d : Dir) (w : Width) (reg : RegOp) (rm : RmOperand) (s : State) :
    exec (.movRmReg d w reg rm) s =
      movExec w (rmDst d reg rm) (s.readOp w (rmSrc d reg rm)) (s.ip + (2 + rm.dispLen)) s := rfl

theorem exec_movImmRm (w : Width) (rm : RmOperand) (v : Word) (s : State) :
    exec (.movImmRm w rm v) s = movExec w rm.place v (s.ip + (2 + rm.dispLen + immLen false w)) s := rfl

theorem exec_movImmReg (w : Width) (r : RegOp) (v : Word) (s : State) :
    exec (.movImmReg w r v) s = movExec w (.reg r) v (s.ip + (1 + immLen false w)) s := rfl

/-! ### What `movExec` leaves -/

/-- R24, R142: the destination slice alone is written. -/
theorem movExec_reg_frame (w : Width) (r : RegOp) (v : Word) (n : Nat) (s : State) :
    ∃ t, movExec w (.reg r) v n s = .next t ∧ s.wroteReg t r v ∧ s.sameFlags t ∧ s.sameMem t ∧ s.sameControl t ∧
      t.ip = n :=
  ⟨_, rfl, s.writeReg_wrote r v, ⟨rfl, rfl⟩, ⟨rfl, fun _ => rfl⟩, ⟨rfl, rfl, rfl, rfl⟩, rfl⟩

/-- R53, R142: only the stored bytes are written, at the address the old registers give. -/
theorem movExec_mem_frame {s : State} (h : s.mem.wf) (w : Width) (m : MemOperand) (v : Word) (n : Nat) :
    ∃ t, movExec w (.mem m) v n s = .next t ∧ s.wroteMem t (storeBytes s.config w) (s.ea m) v ∧ s.sameRegs t ∧
      s.sameFlags t ∧ s.sameControl t ∧ t.ip = n :=
  ⟨_, rfl, State.store_wrote h w _ v, s.store_reg w _ v, ⟨s.store_zf w _ v, s.store_sf w _ v⟩,
    ⟨s.store_run w _ v, s.store_code w _ v, s.store_config w _ v, s.store_trace w _ v⟩, rfl⟩

/-! ### A byte-width store (R162) -/

/-- R23: a byte register reads zero-extended. -/
theorem RegFile.highByte_read_of_wf_byte {r : RegOp} (h : r.wf .byte = true) (f : RegFile) :
    highByte (f.read r) = 0x00#8 := by
  obtain ⟨i, sl⟩ := r
  cases sl with
  | word => cases h
  | lo => exact highByte_zext16 _
  | hi => exact highByte_zext16 _

/-- R88: a byte immediate is zero-extended. -/
theorem highByte_of_immFits_byte {s : Bool} {v : Word} (h : immFits s .byte v = true) : highByte v = 0x00#8 := by
  have hv : v = zext16 (v.setWidth 8) := eq_of_beq h
  rw [hv]
  exact highByte_zext16 _

/-- R162: the byte after a byte-width store is the source's high byte under `word`, and is not reached under `byte`. -/
theorem State.wroteMem_byte {s t : State} {a v : Word} (hne : s.memIndex a ≠ s.memIndex (a + 1#16))
    (h : s.wroteMem t (storeBytes s.config .byte) a v) :
    t.memRead1 a = lowByte v ∧
      (s.config.byteStore = .word → t.memRead1 (a + 1#16) = highByte v) ∧
      (s.config.byteStore = .byte → t.memRead1 (a + 1#16) = s.memRead1 (a + 1#16)) := by
  cases hb : s.config.byteStore with
  | word =>
    obtain ⟨hhigh, hlow, -⟩ : s.wroteMem t 2 a v := by simpa only [storeBytes, hb] using h
    exact ⟨hlow hne, fun _ => hhigh, nofun⟩
  | byte =>
    obtain ⟨hlow, hother⟩ : s.wroteMem t 1 a v := by simpa only [storeBytes, hb] using h
    exact ⟨hlow, nofun, fun _ => hother _ hne.symm⟩

/-! ### The obligations -/

/-- Settles O33: each form runs `movExec` on a register. -/
theorem movToRegister : Obligations.MovToRegister := by
  refine ⟨fun d w reg rm r s hdst => ?_, fun w r v s => movExec_reg_frame w r v _ s,
    fun w r v s => movExec_reg_frame w r v _ s⟩
  rw [exec_movRmReg, hdst]
  exact movExec_reg_frame w r _ _ s

/-- Settles O34: both forms run `movExec` on the memory operand. -/
theorem movToMemory : Obligations.MovToMemory :=
  ⟨fun w _ m _ h => movExec_mem_frame h w m.operand _ _, fun w m v _ h => movExec_mem_frame h w m.operand v _⟩

/-- Settles O35: `movToMemory` at byte width, where both sources are zero-extended. -/
theorem byteStoreWritesOneOrTwoBytes : Obligations.ByteStoreWritesOneOrTwoBytes := by
  intro m reg v s hwf hreg hv hne
  obtain ⟨hmovReg, hmovImm⟩ := movToMemory
  obtain ⟨t, ht, htmem, -⟩ := hmovReg .byte reg m s hwf
  obtain ⟨u, hu, humem, -⟩ := hmovImm .byte m v s hwf
  obtain ⟨htlow, htword, htbyte⟩ := State.wroteMem_byte hne htmem
  obtain ⟨hulow, huword, hubyte⟩ := State.wroteMem_byte hne humem
  rw [RegFile.highByte_read_of_wf_byte hreg] at htword
  rw [highByte_of_immFits_byte hv] at huword
  exact ⟨t, u, ht, hu, htlow, hulow, fun hb => ⟨htword hb, huword hb⟩, fun hb => ⟨htbyte hb, hubyte hb⟩⟩

end Sys2Proof.Machine
end

section
/-! The arithmetic family: what each form leaves of a register destination, that cmp sets sub's flags, and one register
as source and destination (spec/42_arith.md R180 to R191). -/

namespace Sys2Proof.Machine

/-! ### What `arithExec` leaves (R189) -/

/-- R24, R142: with the writeback the destination slice takes the ALU's result, and the flags are the ALU's. -/
theorem arithExec_writeback_frame (fn : AluFn) (w : Width) {p : Place} {r : RegOp} (hp : p = .reg r) (o : Operand)
    (n : Nat) (s : State) :
    ∃ t, arithExec fn p o w true n s = .next t ∧
      s.wroteReg t r (alu s.config fn w (s.regs.read r) (s.readOp w o)).r ∧
      t.zf = (alu s.config fn w (s.regs.read r) (s.readOp w o)).z ∧
      t.sf = (alu s.config fn w (s.regs.read r) (s.readOp w o)).s ∧
      s.sameMem t ∧ s.sameControl t ∧ t.ip = n := by
  subst hp
  exact ⟨_, rfl, s.writeReg_wrote r _, rfl, rfl, ⟨rfl, fun _ => rfl⟩, ⟨rfl, rfl, rfl, rfl⟩, rfl⟩

/-- R142: without the writeback the flags and `ip` alone are written. -/
theorem arithExec_flagsOnly_frame (fn : AluFn) (w : Width) {p : Place} {r : RegOp} (hp : p = .reg r) (o : Operand)
    (n : Nat) (s : State) :
    ∃ t, arithExec fn p o w false n s = .next t ∧ s.sameRegs t ∧
      t.zf = (alu s.config fn w (s.regs.read r) (s.readOp w o)).z ∧
      t.sf = (alu s.config fn w (s.regs.read r) (s.readOp w o)).s ∧
      s.sameMem t ∧ s.sameControl t ∧ t.ip = n := by
  subst hp
  exact ⟨_, rfl, fun _ => rfl, rfl, rfl, ⟨rfl, fun _ => rfl⟩, ⟨rfl, rfl, rfl, rfl⟩, rfl⟩

/-- R190: the writeback touches the register file alone; a memory destination stops the CORE either way (R243). -/
theorem arithExec_writeback_differs_in_regs (fn : AluFn) (p : Place) (o : Operand) (w : Width) (n : Nat) (s : State) :
    ∃ t u, arithExec fn p o w false n s = .next t ∧ arithExec fn p o w true n s = .next u ∧ t.regs = s.regs ∧
      t.zf = u.zf ∧ t.sf = u.sf ∧ t.ip = u.ip ∧ t.run = u.run ∧ t.mem = u.mem := by
  cases p with
  | mem m =>
    exact ⟨_, _, arithExec_mem fn m o w false n s, arithExec_mem fn m o w true n s, rfl, rfl, rfl, rfl, rfl, rfl⟩
  | reg r =>
    exact ⟨_, _, arithExec_reg fn r o w false n s, arithExec_reg fn r o w true n s, rfl, rfl, rfl, rfl, rfl, rfl⟩

/-! ### One register as source and destination (R191) -/

theorem rmDst_reg_self (d : Dir) (r : RegOp) : rmDst d r (.reg r) = .reg r := by
  cases d <;> rfl

theorem rmSrc_reg_self (d : Dir) (r : RegOp) : rmSrc d r (.reg r) = .reg r := by
  cases d <;> rfl

/-- R23, R24: what an operand of width `w` reads as after it was written. -/
theorem State.read_of_wroteReg {s t : State} {w : Width} {r : RegOp} {v : Word} (hr : r.wf w = true)
    (h : s.wroteReg t r v) : t.regs.read r = if w = .word then v else zext16 (lowByte v) := by
  obtain ⟨i, sl⟩ := r
  obtain ⟨hw, -⟩ := Bool.and_eq_true_iff.1 hr
  obtain rfl : sl.width = w := eq_of_beq hw
  obtain ⟨-, h⟩ := h
  cases sl with
  | word => exact h
  | lo | hi =>
    obtain ⟨hwritten, -⟩ := h
    exact congrArg zext16 hwritten

theorem aluWord_sub_self (a : Word) : aluWord .sub a a = ⟨0#16, true, false⟩ := by
  simp [aluWord, AluFn.word]

/-- R138 to R140: a value less itself is 0, whose sign bit is clear, at both widths and under both settings. -/
theorem alu_sub_self (c : Config) (w : Width) (a : Word) : alu c .sub w a a = ⟨0#16, true, false⟩ := by
  cases w with
  | word => exact aluWord_sub_self a
  | byte =>
    cases h : c.byteArith with
    | native8 =>
      rw [alu_byte_of_native8 h, aluNative8, AluFn.byte, BitVec.sub_self]
      rfl
    | wide16 => exact (alu_byte_of_wide16 h .sub a a).trans (aluWord_sub_self _)

/-- R138 to R140: the low byte of a byte sum of a value with itself is twice its low byte mod 2^8. -/
theorem lowByte_alu_add_self_toNat (c : Config) (a : Word) :
    (lowByte (alu c .add .byte a a).r).toNat = 2 * a.toNat % 256 := by
  rw [lowByte_alu_byte, AluFn.byte, BitVec.toNat_add, lowByte_toNat]
  omega

theorem alu_word_add_self_toNat (c : Config) (a : Word) : (alu c .add .word a a).r.toNat = 2 * a.toNat % 65536 := by
  rw [alu_word, aluWord_add_toNat, Nat.two_mul]

/-! ### The obligations -/

/-- Settles O43: `cmp` is `sub` without the writeback, in each of the three forms. -/
theorem cmpFlagsAreSubFlags : Obligations.CmpFlagsAreSubFlags := by
  rintro i j (⟨d, w, reg, rm, rfl, rfl⟩ | ⟨sx, w, rm, v, rfl, rfl⟩ | ⟨w, v, rfl, rfl⟩) s
  · exact arithExec_writeback_differs_in_regs .sub (rmDst d reg rm) (rmSrc d reg rm) w _ s
  · exact arithExec_writeback_differs_in_regs .sub rm.place (.imm v) w _ s
  · exact arithExec_writeback_differs_in_regs .sub (.reg (accReg w)) (.imm v) w _ s

/-- Settles O40: each form runs `arithExec` with the writeback on a register. -/
theorem addToRegister : Obligations.AddToRegister :=
  ⟨fun _ w _ _ _ s hdst => arithExec_writeback_frame .add w hdst _ _ s,
    fun _ w _ v s => arithExec_writeback_frame .add w rfl (.imm v) _ s,
    fun w v s => arithExec_writeback_frame .add w rfl (.imm v) _ s⟩

/-- Settles O41: each form runs `arithExec` with the writeback on a register, the function being the difference. -/
theorem subToRegister : Obligations.SubToRegister :=
  ⟨fun _ w _ _ _ s hdst => arithExec_writeback_frame .sub w hdst _ _ s,
    fun _ w _ v s => arithExec_writeback_frame .sub w rfl (.imm v) _ s,
    fun w v s => arithExec_writeback_frame .sub w rfl (.imm v) _ s⟩

/-- Settles O42: each form runs `arithExec` without the writeback on a register. -/
theorem cmpWritesFlagsOnly : Obligations.CmpWritesFlagsOnly :=
  ⟨fun _ w _ _ _ s hdst => arithExec_flagsOnly_frame .sub w hdst _ _ s,
    fun _ w _ v s => arithExec_flagsOnly_frame .sub w rfl (.imm v) _ s,
    fun w v s => arithExec_flagsOnly_frame .sub w rfl (.imm v) _ s⟩

/-- Settles O45: `subToRegister`, `cmpWritesFlagsOnly` and `addToRegister` with both operands the one register. -/
theorem sameRegisterArithmetic : Obligations.SameRegisterArithmetic := by
  intro d w r s hr
  obtain ⟨hsub, -⟩ := subToRegister
  obtain ⟨hcmp, -⟩ := cmpWritesFlagsOnly
  obtain ⟨hadd, -⟩ := addToRegister
  obtain ⟨t, ht, htr, htz, hts, -⟩ := hsub d w r (.reg r) r s (rmDst_reg_self d r)
  obtain ⟨u, hu, -, huz, hus, -⟩ := hcmp d w r (.reg r) r s (rmDst_reg_self d r)
  obtain ⟨v, hv, hvr, -⟩ := hadd d w r (.reg r) r s (rmDst_reg_self d r)
  have hsrc : s.readOp w (rmSrc d r (.reg r)) = s.regs.read r := by rw [rmSrc_reg_self, State.readOp]
  rw [hsrc, alu_sub_self] at htr htz hts huz hus
  rw [hsrc] at hvr
  refine ⟨t, u, v, ht, hu, hv, ?_, htz, hts, huz, hus, ?_⟩
  · rw [State.read_of_wroteReg hr htr]
    cases w <;> rfl
  · rw [State.read_of_wroteReg hr hvr]
    cases w with
    | byte => exact (zext16_toNat _).trans (lowByte_alu_add_self_toNat s.config _)
    | word => exact alu_word_add_self_toNat s.config _

end Sys2Proof.Machine
end

section
/-! Jumps and loops: what the condition evaluator answers of each branch, where a branch goes, and what it leaves
(spec/43_branch.md R200 to R224). -/

namespace Sys2Proof.Machine

/-! ### The condition evaluator (R146, R221) -/

theorem State.cond_reference {s : State} (h : s.config.branchEval = .reference) (b : BranchOp) :
    s.cond b = (condReference b s.zf, none) := by
  rw [State.cond, h]

theorem State.cond_extended {s : State} (h : s.config.branchEval = .extended) (b : BranchOp) :
    s.cond b = (condExtended b s.zf s.sf (s.reg .cx), loopCount b (s.reg .cx)) := by
  rw [State.cond, h]

/-- R205: jne is evaluated alike under both settings. -/
theorem State.cond_jne (s : State) : s.cond .jne = (Verdict.ofBool (!s.zf), none) := by
  cases h : s.config.branchEval with
  | reference => exact State.cond_reference h .jne
  | extended => exact State.cond_extended h .jne

theorem condReference_of_ne_jne {b : BranchOp} (h : b ≠ .jne) (z : Bool) : condReference b z = .notTaken := by
  cases b with
  | jne => exact absurd rfl h
  | _ => rfl

/-- R221: under `reference` every branch but jne is not taken and counts nothing. -/
theorem State.cond_reference_of_ne_jne {s : State} (h : s.config.branchEval = .reference) {b : BranchOp} (hb : b ≠ .jne) :
    s.cond b = (Verdict.ofBool false, none) := by
  rw [State.cond_reference h, condReference_of_ne_jne hb]
  rfl

/-- R223: jcxz counts nothing under either setting. -/
theorem State.cond_jcxz_count (s : State) : (s.cond .jcxz).2 = none := by
  cases h : s.config.branchEval with
  | reference => rw [State.cond_reference h]
  | extended => rw [State.cond_extended h, loopCount]

/-! ### Where a branch goes (R220) -/

theorem branchExec_unevaluable {b : BranchOp} {s : State} (h : (s.cond b).1 = .unevaluable) (d : Byte) (n : Nat) :
    branchExec b d n s = .next (s.halt .unimplementedCondition) := by
  rw [branchExec, h]

/-- R220: a branch on `c` that counts `o` writes the count and then `ip`: the next instruction when `c` is false, the target
when `c` is true and the target lies in the stream. -/
theorem exec_instr_of_cond {b : BranchOp} {c : Bool} {o : Option Word} {s : State}
    (h : s.cond b = (Verdict.ofBool c, o)) {d : Byte} {n : Nat}
    (hn : (c = false ∧ n = s.ip + 2) ∨ (c = true ∧ (n : Int) = (s.ip : Int) + 2 + d.toInt ∧ n ≤ s.code.length)) :
    exec (b.instr d) s = .next ((s.writeCount o).setIp n) := by
  have ho : (s.cond b).2 = o := congrArg Prod.snd h
  rw [exec_instr, ← ho]
  rcases hn with ⟨rfl, rfl⟩ | ⟨rfl, ht, hl⟩
  · exact branchExec_notTaken (congrArg Prod.fst h) d _
  · exact branchExec_taken (congrArg Prod.fst h) ht hl

/-- R224: the target of a branch lies within `ip - 126 .. ip + 129`. -/
theorem target_bounds (ip : Nat) (d : Byte) :
    (ip : Int) - 126 ≤ ip + 2 + d.toInt ∧ (ip : Int) + 2 + d.toInt ≤ ip + 129 := by
  have hlo : -128 ≤ d.toInt := d.le_toInt
  have hhi : d.toInt < 128 := d.toInt_lt
  omega

/-! ### What a branch leaves (R223, R224) -/

/-- R52: when an instruction keeps the memory's cells, every address still reads the same byte: MEM_SIZE does not change. -/
theorem exec_sameMem {i : Instr} {s u : State} (h : exec i s = .next u) (hm : u.mem = s.mem) : s.sameMem u := by
  obtain ⟨-, hconfig⟩ := exec_keeps_program h
  refine ⟨hm, fun a => ?_⟩
  rw [State.memRead1, State.memRead1, State.memIndex_of_config hconfig, hm]

/-- R220: a branch that counts nothing writes no register. -/
theorem branchExec_keeps_regs {b : BranchOp} {d : Byte} {n : Nat} {s u : State} (hc : (s.cond b).2 = none)
    (h : branchExec b d n s = .next u) : s.sameRegs u := by
  rcases branchExec_cases b d n s with ⟨-, hb⟩ | ⟨-, -, hb⟩ | ⟨t, hb, -⟩ <;> cases hb.symm.trans h
  · exact s.halt_reg _
  · exact s.halt_reg _
  · rw [hc]
    exact fun _ => rfl

/-- R224: what a branch does with RUN and `ip` when it is taken. -/
theorem branchExec_taken_law {b : BranchOp} {d : Byte} {s u : State} (hv : (s.cond b).1 = .taken)
    (h : branchExec b d (s.ip + 2) s = .next u) :
    if 0 ≤ (s.ip : Int) + 2 + d.toInt ∧ (s.ip : Int) + 2 + d.toInt ≤ s.code.length
    then u.run = s.run ∧ (u.ip : Int) = s.ip + 2 + d.toInt
    else u.run = .halted .branchOutOfStream ∧ u.ip = s.ip := by
  split
  next hin =>
    obtain ⟨hlo, hhi⟩ := hin
    obtain ⟨n, hn⟩ := Int.eq_ofNat_of_zero_le hlo
    have hnext := branchExec_taken hv hn.symm (by omega)
    cases hnext.symm.trans h
    exact ⟨s.writeCount_run _, hn.symm⟩
  next hout =>
    have hstop := branchExec_outOfStream (d := d) hv (by omega)
    cases hstop.symm.trans h
    exact ⟨rfl, rfl⟩

/-- R223: the count of a loop form, as a number. -/
theorem toNat_sub_one (x : Word) : (x - 1#16).toNat = (x.toNat + 65535) % 65536 := by
  rw [BitVec.toNat_sub, Nat.add_comm]
  rfl

/-! ### Which instructions go elsewhere than the next one, and which stop for their condition (R222, R224) -/

/-- R142, R243: an instruction that is no branch stops for its memory destination, or goes on to the next one. -/
theorem exec_of_op_ne_branch {i : Instr} {s u : State} (h : exec i s = .next u) (hop : ∀ b, i.op ≠ .branch b) :
    u = s.halt .unimplementedDestination ∨ (u.run = s.run ∧ u.ip = s.next i) := by
  cases ho : i.op with
  | mov =>
    obtain ⟨w, p, o, -, -, -, he⟩ := exec_mov ho
    cases (he s).symm.trans h
    exact .inr ⟨s.writeOp_run w p _, rfl⟩
  | arith a =>
    obtain ⟨w, p, o, -, -, -, he⟩ := exec_arith ho
    rw [he s] at h
    cases p with
    | mem m =>
      cases h
      exact .inl rfl
    | reg r =>
      cases h
      refine .inr ⟨?_, rfl⟩
      cases writesBack a <;> rfl
  | branch b => exact absurd ho (hop b)

/-- R222, R248: only a branch whose condition is Unevaluable stops with UnimplementedCondition. -/
theorem exec_unimplementedCondition {i : Instr} {s u : State} (hs : s.run = .running) (h : exec i s = .next u)
    (hu : u.run = .halted .unimplementedCondition) : ∃ b, i.op = .branch b ∧ (s.cond b).1 = .unevaluable := by
  by_cases hop : ∃ b, i.op = .branch b
  · obtain ⟨b, hb⟩ := hop
    obtain ⟨d, -, -, he⟩ := exec_branch hb
    rw [he s] at h
    rcases branchExec_cases b d (s.ip + 2) s with ⟨hv, -⟩ | ⟨-, -, ht⟩ | ⟨n, ht, -⟩
    · exact ⟨b, hb, hv⟩
    · cases ht.symm.trans h
      cases hu
    · cases ht.symm.trans h
      cases hu.symm.trans ((s.writeCount_run _).trans hs)
  · rcases exec_of_op_ne_branch h (not_exists.1 hop) with rfl | ⟨hrun, -⟩
    · cases hu
    · cases hu.symm.trans (hrun.trans hs)

/-- R224: under `reference` only a jne that is taken goes anywhere but to the next instruction. -/
theorem jne_of_reference_ip_ne {i : Instr} {s u : State} (href : s.config.branchEval = .reference)
    (h : exec i s = .next u) (hu : u.run = .running) (hip : u.ip ≠ s.ip + i.len) : ∃ d, i = .jne d ∧ s.zf = false := by
  by_cases hop : ∃ b, i.op = .branch b
  · obtain ⟨b, hb⟩ := hop
    obtain ⟨d, rfl, hlen, -⟩ := exec_branch hb
    have hv : s.cond b ≠ (Verdict.ofBool false, none) := by
      intro hc
      cases (exec_instr_of_cond hc (.inl ⟨rfl, rfl⟩)).symm.trans h
      exact hip (by rw [hlen]; rfl)
    have hjne : b = .jne := by
      by_contra hne
      exact hv (State.cond_reference_of_ne_jne href hne)
    subst hjne
    refine ⟨d, rfl, Bool.eq_false_iff.2 fun hz => hv ?_⟩
    rw [State.cond_jne, hz]
    rfl
  · rcases exec_of_op_ne_branch h (not_exists.1 hop) with rfl | ⟨-, hnext⟩
    · cases hu
    · exact absurd hnext hip

/-! ### The obligations -/

/-- Settles O48: jne is a branch on ZF = 0 that counts nothing, under both settings (`State.cond_jne`). -/
theorem jneBranches : Obligations.JneBranches := fun d s =>
  ⟨fun hz => exec_instr_of_cond (b := .jne) (d := d) s.cond_jne (.inl ⟨by rw [hz]; rfl, rfl⟩),
    fun _ hz ht hl => exec_instr_of_cond (b := .jne) s.cond_jne (.inr ⟨by rw [hz]; rfl, ht, hl⟩)⟩

/-- Settles O49: the listed instructions are the branches other than jne, and none of these is taken. -/
theorem referenceBranchesFallThrough : Obligations.ReferenceBranchesFallThrough := by
  intro d s href i hi
  obtain ⟨b, hb, rfl⟩ : ∃ b ∈ ([.jo, .jno, .jb, .jnb, .je, .jbe, .ja, .js, .jns, .jp, .jnp, .jl, .jnl, .jle, .jg, .loopnz,
    .loopz, .loop, .jcxz] : List BranchOp), b.instr d = i := List.mem_map.1 hi
  have hne : b ≠ .jne := by
    rintro rfl
    exact absurd hb (by decide)
  exact exec_instr_of_cond (State.cond_reference_of_ne_jne href hne) (.inl ⟨rfl, rfl⟩)

/-- Settles O50: each of the four is a branch on its condition that counts nothing. -/
theorem extendedConditionalJumps : Obligations.ExtendedConditionalJumps := by
  intro d s c i hext hi
  obtain ⟨b, rfl, hb⟩ : ∃ b : BranchOp, i = b.instr d ∧ s.cond b = (Verdict.ofBool c, none) := by
    rcases hi with ⟨rfl, rfl⟩ | ⟨rfl, rfl⟩ | ⟨rfl, rfl⟩ | ⟨rfl, rfl⟩
    · exact ⟨.je, rfl, State.cond_extended hext .je⟩
    · exact ⟨.js, rfl, State.cond_extended hext .js⟩
    · exact ⟨.jns, rfl, State.cond_extended hext .jns⟩
    · exact ⟨.jcxz, rfl, State.cond_extended hext .jcxz⟩
  exact ⟨fun hc => exec_instr_of_cond hb (.inl ⟨hc, rfl⟩), fun _ hc ht hl => exec_instr_of_cond hb (.inr ⟨hc, ht, hl⟩)⟩

/-- Settles O51: under `extended` each loop form is a branch on its condition that counts CX - 1; jcxz, and every loop form
under `reference`, counts nothing. -/
theorem loopFormsCountDown : Obligations.LoopFormsCountDown := by
  constructor
  · intro d s c i hext hi
    obtain ⟨b, rfl, hb⟩ : ∃ b : BranchOp, i = b.instr d ∧ s.cond b = (Verdict.ofBool c, some (s.reg .cx - 1#16)) := by
      rcases hi with ⟨rfl, rfl⟩ | ⟨rfl, rfl⟩ | ⟨rfl, rfl⟩ <;> rw [decide_not]
      · exact ⟨.loop, rfl, State.cond_extended hext .loop⟩
      · exact ⟨.loopz, rfl, State.cond_extended hext .loopz⟩
      · exact ⟨.loopnz, rfl, State.cond_extended hext .loopnz⟩
    refine ⟨fun n hn => ⟨_, exec_instr_of_cond hb hn, ?_, fun q hq => s.setReg_reg_other hq _, ⟨rfl, rfl⟩,
      ⟨rfl, fun _ => rfl⟩, ⟨rfl, rfl, rfl, rfl⟩, rfl⟩, fun hc hout => ?_⟩
    · rw [State.setIp_reg, State.writeCount_some, State.setReg_reg_same, toNat_sub_one]
    · subst hc
      exact (exec_instr b d s).trans (branchExec_outOfStream (congrArg Prod.fst hb) hout)
  · intro d s t i hi h
    obtain ⟨b, rfl, hb⟩ : ∃ b : BranchOp, i = b.instr d ∧ (s.cond b).2 = none := by
      rcases hi with rfl | ⟨href, rfl | rfl | rfl⟩
      · exact ⟨.jcxz, rfl, s.cond_jcxz_count⟩
      · exact ⟨.loop, rfl, congrArg Prod.snd (State.cond_reference href .loop)⟩
      · exact ⟨.loopz, rfl, congrArg Prod.snd (State.cond_reference href .loopz)⟩
      · exact ⟨.loopnz, rfl, congrArg Prod.snd (State.cond_reference href .loopnz)⟩
    have he := (exec_instr b d s).symm.trans h
    exact ⟨branchExec_keeps_regs hb he, branchExec_keeps_flags he, exec_sameMem h (branchExec_keeps_mem he)⟩

/-- Settles O52: the listed jumps are those whose condition is Unevaluable under `extended` (`cond_unevaluable_iff`), and
nothing else stops so. -/
theorem unevaluableJumpsHalt : Obligations.UnevaluableJumpsHalt := by
  constructor
  · intro d s hext i hi
    obtain ⟨b, hb, rfl⟩ : ∃ b ∈ ([.jo, .jno, .jb, .jnb, .jbe, .ja, .jp, .jnp, .jl, .jnl, .jle, .jg] : List BranchOp),
      b.instr d = i := List.mem_map.1 hi
    exact (exec_instr b d s).trans (branchExec_unevaluable ((cond_unevaluable_iff s b).2 ⟨hext, hb⟩) d _)
  · intro s t i href hs h hrun
    obtain ⟨b, -, hv⟩ := exec_unimplementedCondition hs h hrun
    obtain ⟨hext, -⟩ := (cond_unevaluable_iff s b).1 hv
    cases href.symm.trans hext

/-- Settles O54: the cases of `BranchExec` not taken and taken, and `jne_of_reference_ip_ne`. -/
theorem branchLaws : Obligations.BranchLaws := by
  refine ⟨fun i b d s hop hd => ?_, fun s t i href _ h hrun hip => jne_of_reference_ip_ne href h hrun hip⟩
  obtain ⟨d', rfl, -, he⟩ := exec_branch hop
  obtain rfl : d' = d := Option.some.inj ((BranchOp.instr_disp8 b d').symm.trans hd)
  obtain ⟨t, ht, -⟩ := exec_next (b.instr d') s
  have hb := (he s).symm.trans ht
  obtain ⟨hlo, hhi⟩ := target_bounds s.ip d'
  refine ⟨t, ht, branchExec_keeps_flags hb, exec_sameMem ht (branchExec_keeps_mem hb), fun hv => ?_,
    fun hv => ⟨hlo, hhi, branchExec_taken_law hv hb⟩⟩
  cases (branchExec_notTaken hv d' _).symm.trans hb
  exact ⟨s.writeCount_run _, rfl⟩

end Sys2Proof.Machine
end

section
/-! The ways the CORE stops, each with its cause, the hang that never stops, and the trace record of a step that does not
stop (spec/60_exceptions.md R240 to R254). -/

namespace Sys2Proof

/-! ### The destination of an arithmetic form (R102) -/

theorem ArithOp.rmInstr_dst (op : ArithOp) (d : Dir) (w : Width) (reg : RegOp) (rm : RmOperand) :
    (op.rmInstr d w reg rm).dst = some (rmDst d reg rm) := by
  cases op <;> rfl

theorem ArithOp.immRmInstr_dst (op : ArithOp) (s : Bool) (w : Width) (rm : RmOperand) (v : Word) :
    (op.immRmInstr s w rm v).dst = some rm.place := by
  cases op <;> rfl

end Sys2Proof

namespace Sys2Proof.Machine

/-! ### What makes a step stop (R241 to R245) -/

theorem step_of_ip_eq_length {s : State} (hr : s.run = .running) (hip : s.ip = s.code.length) :
    step s = .next (s.halt .endOfStream) := by
  rw [step, hr]
  simp [State.atEnd, hip]

theorem step_of_decode_error {s : State} {f : DecodeFault} (hr : s.run = .running) (hip : s.ip ≠ s.code.length)
    (hd : decode s.fetch = .error f) : step s = .next (s.halt (decodeFaultReason f)) := by
  rw [step, hr]
  simp [State.atEnd, hip, hd]

/-- R151: the step of an instruction that stops the CORE is that stop. -/
theorem step_of_exec_halt {s : State} {i : Instr} {rest : List Byte} {r : HaltReason} (hr : s.run = .running)
    (hd : decode s.fetch = .ok (i, rest)) (he : exec i s = .next (s.halt r)) : step s = .next (s.halt r) := by
  rw [step_of_decode hr hd, he]
  exact finishStep_of_ne_running (by simp)

/-- R243: add, sub and cmp with a memory destination. -/
theorem exec_arith_mem {i : Instr} {a : ArithOp} {m : MemOperand} (hop : i.op = .arith a) (hdst : i.dst = some (.mem m))
    (s : State) : exec i s = .next (s.halt .unimplementedDestination) := by
  obtain ⟨w, p, o, -, hp, -, he⟩ := exec_arith hop
  cases hp.symm.trans hdst
  exact he s

/-- R222: a branch whose condition is Unevaluable. -/
theorem exec_branch_unevaluable {i : Instr} {b : BranchOp} {s : State} (hop : i.op = .branch b)
    (hv : (s.cond b).1 = .unevaluable) : exec i s = .next (s.halt .unimplementedCondition) := by
  obtain ⟨d, -, -, he⟩ := exec_branch hop
  exact (he s).trans (branchExec_unevaluable hv d _)

/-- R245: a branch taken to a target outside the stream. -/
theorem exec_branch_outOfStream {i : Instr} {b : BranchOp} {d : Byte} {s : State} (hop : i.op = .branch b)
    (hd : i.disp8 = some d) (hv : (s.cond b).1 = .taken)
    (hout : (s.ip : Int) + 2 + d.toInt < 0 ∨ (s.code.length : Int) < (s.ip : Int) + 2 + d.toInt) :
    exec i s = .next (s.halt .branchOutOfStream) := by
  obtain ⟨d', rfl, -, he⟩ := exec_branch hop
  cases (BranchOp.instr_disp8 b d').symm.trans hd
  exact (he s).trans (branchExec_outOfStream hv hout)

/-! ### What a stop leaves (R246) -/

theorem exec_stop_eq_halt {i : Instr} {s u : State} (hs : s.run = .running) (h : exec i s = .next u)
    (hu : u.run ≠ .running) : ∃ r, u = s.halt r := by
  obtain ⟨t, ht, hcases⟩ := exec_next i s
  cases ht.symm.trans h
  rcases hcases with ⟨r, rfl, -⟩ | ⟨hrun, -⟩
  · exact ⟨r, rfl⟩
  · exact absurd (hrun.trans hs) hu

theorem step_stop_eq_halt {s t : State} (h : step s = .next t) (ht : t.run ≠ .running) : ∃ r, t = s.halt r := by
  have hs := running_of_step h
  rcases step_cases hs h with ⟨-, rfl⟩ | ⟨-, f, -, rfl⟩ | ⟨-, i, rest, u, -, hu, ⟨r, -, rfl⟩ | ⟨hrun, rfl⟩⟩
  · exact ⟨_, rfl⟩
  · exact ⟨_, rfl⟩
  · exact exec_stop_eq_halt hs hu ht
  · exact absurd hrun ht

/-! ### The cause of each stop (R240, R249) -/

/-- R240 to R248: what holds of a running state whose step stops for the reason given. -/
def State.stopCause (s : State) : HaltReason → Prop
  | .endOfStream => s.ip = s.code.length
  | .unsupportedOpcode => s.ip ≠ s.code.length ∧ decode s.fetch = .error .unsupportedOpcode
  | .truncatedStream => s.ip ≠ s.code.length ∧ decode s.fetch = .error .truncatedStream
  | .unimplementedDestination => s.ip ≠ s.code.length ∧
      ∃ i rest a m, decode s.fetch = .ok (i, rest) ∧ i.op = .arith a ∧ i.dst = some (.mem m)
  | .unimplementedCondition => s.ip ≠ s.code.length ∧ s.config.branchEval = .extended ∧
      ∃ i rest b, decode s.fetch = .ok (i, rest) ∧ i.op = .branch b ∧
        b ∈ [.jo, .jno, .jb, .jnb, .jbe, .ja, .jp, .jnp, .jl, .jnl, .jle, .jg]
  | .branchOutOfStream => s.ip ≠ s.code.length ∧
      ∃ i rest b d, decode s.fetch = .ok (i, rest) ∧ i.op = .branch b ∧ i.disp8 = some d ∧ (s.cond b).1 = .taken ∧
        ((s.ip : Int) + 2 + d.toInt < 0 ∨ (s.code.length : Int) < (s.ip : Int) + 2 + d.toInt)

theorem step_of_stopCause {s : State} {r : HaltReason} (hs : s.run = .running) (hc : s.stopCause r) :
    step s = .next (s.halt r) := by
  cases r with
  | endOfStream => exact step_of_ip_eq_length hs hc
  | unsupportedOpcode =>
    obtain ⟨hip, hd⟩ := hc
    exact step_of_decode_error hs hip hd
  | truncatedStream =>
    obtain ⟨hip, hd⟩ := hc
    exact step_of_decode_error hs hip hd
  | unimplementedDestination =>
    obtain ⟨-, i, rest, a, m, hd, hop, hdst⟩ := hc
    exact step_of_exec_halt hs hd (exec_arith_mem hop hdst s)
  | unimplementedCondition =>
    obtain ⟨-, hext, i, rest, b, hd, hop, hb⟩ := hc
    exact step_of_exec_halt hs hd (exec_branch_unevaluable hop ((cond_unevaluable_iff s b).2 ⟨hext, hb⟩))
  | branchOutOfStream =>
    obtain ⟨-, i, rest, b, d, hd, hop, hdisp, hv, hout⟩ := hc
    exact step_of_exec_halt hs hd (exec_branch_outOfStream hop hdisp hv hout)

/-- R243, R245, R248: an instruction that stops the CORE is an add, sub or cmp to memory, a branch that cannot be evaluated,
or one that is taken out of the stream. -/
theorem stopCause_of_exec_halted {s u : State} {i : Instr} {rest : List Byte} {r : HaltReason} (hs : s.run = .running)
    (hip : s.ip ≠ s.code.length) (hd : decode s.fetch = .ok (i, rest)) (h : exec i s = .next u)
    (hu : u.run = .halted r) : s.stopCause r := by
  cases hop : i.op with
  | mov =>
    obtain ⟨w, p, o, -, -, -, he⟩ := exec_mov hop
    cases (he s).symm.trans h
    cases hu.symm.trans ((s.writeOp_run w p _).trans hs)
  | arith a =>
    obtain ⟨w, p, o, -, hdst, -, he⟩ := exec_arith hop
    cases p with
    | mem m =>
      cases (exec_arith_mem hop hdst s).symm.trans h
      cases hu
      exact ⟨hip, i, rest, a, m, hd, hop, hdst⟩
    | reg q =>
      have hrun : u.run = s.run := by
        rw [he s] at h
        cases h
        cases writesBack a <;> rfl
      cases hu.symm.trans (hrun.trans hs)
  | branch b =>
    obtain ⟨d, rfl, -, he⟩ := exec_branch hop
    rw [he s] at h
    rcases branchExec_cases b d (s.ip + 2) s with ⟨hv, hb⟩ | ⟨hv, hout, hb⟩ | ⟨n, hb, -⟩ <;> cases hb.symm.trans h
    · cases hu
      obtain ⟨hext, hmem⟩ := (cond_unevaluable_iff s b).1 hv
      exact ⟨hip, hext, _, rest, b, hd, hop, hmem⟩
    · cases hu
      exact ⟨hip, _, rest, b, d, hd, hop, BranchOp.instr_disp8 b d, hv, (outOfStream_iff s d).1 hout⟩
    · cases hu.symm.trans ((s.writeCount_run _).trans hs)

theorem stopCause_of_step_halted {s t : State} {r : HaltReason} (h : step s = .next t) (ht : t.run = .halted r) :
    s.stopCause r := by
  have hs := running_of_step h
  rcases step_cases hs h with ⟨hip, rfl⟩ | ⟨hip, f, hd, rfl⟩ | ⟨hip, i, rest, u, hd, hu, ⟨r', -, rfl⟩ | ⟨hrun, rfl⟩⟩
  · cases ht
    exact hip
  · cases f <;> cases ht <;> exact ⟨hip, hd⟩
  · exact stopCause_of_exec_halted hs hip hd hu ht
  · cases hrun.symm.trans ht

/-- R249: the reason recorded is the one whose cause holds. -/
theorem step_halted_iff {s t : State} (hs : s.run = .running) (h : step s = .next t) (r : HaltReason) :
    t.run = .halted r ↔ s.stopCause r := by
  refine ⟨stopCause_of_step_halted h, fun hc => ?_⟩
  cases (step_of_stopCause hs hc).symm.trans h
  exact s.halt_run r

/-! ### The jump to itself (R247) -/

/-- R101: what decodes has at least one byte. -/
theorem ip_lt_length_of_decode {s : State} {i : Instr} {rest : List Byte} (h : decode s.fetch = .ok (i, rest)) :
    s.ip < s.code.length := by
  by_contra hge
  rw [State.fetch, List.drop_eq_nil_of_le (Nat.le_of_not_lt hge)] at h
  cases h

/-- R205: `75 FE` with ZF = 0 goes to its own first byte, so its step appends a trace record and changes nothing else. -/
theorem step_jne_self {s : State} {rest : List Byte} (hs : s.run = .running) (hz : s.zf = false)
    (hd : decode s.fetch = .ok (.jne 0xFE#8, rest)) : step s = .next (s.emit (traceRecord (.jne 0xFE#8) s s)) := by
  have htarget : (s.ip : Int) = (s.ip : Int) + 2 + (0xFE#8).toInt := by
    rw [show (0xFE#8).toInt = -2 from rfl]
    omega
  have hexec : exec (.jne 0xFE#8) s = .next s :=
    (jneBranches 0xFE#8 s).2 s.ip hz htarget (ip_lt_length_of_decode hd).le
  rw [step_of_decode hs hd, hexec]
  exact finishStep_of_running hs

theorem run_succ_of_step {M : Host.Core} {s t : M.State} (h : M.step s = .next t) (n : Nat) :
    M.run (n + 1) s = M.run n t := by
  rw [Host.Core.run, h]

/-! ### The trace record (R254) -/

theorem exec_keeps_trace {i : Instr} {s u : State} (h : exec i s = .next u) : u.trace = s.trace := by
  obtain ⟨t, ht, hcases⟩ := exec_next i s
  cases ht.symm.trans h
  rcases hcases with ⟨r, rfl, -⟩ | ⟨-, -, -, htrace⟩
  · exact s.halt_trace r
  · exact htrace

theorem mem_sourceOrder (r : Reg) : r ∈ sourceOrder := by
  cases r <;> decide

theorem mem_regChanges_iff (s t : State) (c : RegChange) :
    c ∈ regChanges s t ↔ c.old = s.reg c.reg ∧ c.new = t.reg c.reg ∧ c.old ≠ c.new := by
  obtain ⟨r, old, new⟩ := c
  simp only [regChanges, List.mem_filterMap, mem_sourceOrder, true_and]
  constructor
  · rintro ⟨q, hq⟩
    split at hq
    · cases hq
    next hne =>
      cases hq
      exact ⟨rfl, rfl, hne⟩
  · rintro ⟨rfl, rfl, hne⟩
    exact ⟨r, if_neg hne⟩

/-- R254: the changed registers stand in the source's order, because `regChanges` filters it. -/
theorem regChanges_map_reg (s t : State) :
    (regChanges s t).map RegChange.reg = sourceOrder.filter fun r => s.reg r ≠ t.reg r := by
  rw [regChanges, List.map_filterMap, ← List.filterMap_eq_filter]
  congr 1
  funext r
  by_cases h : s.reg r = t.reg r <;> simp [h, Option.guard]

theorem flagChange_eq (s t : State) :
    flagChange s t = if t.zf = s.zf ∧ t.sf = s.sf then none else some (⟨s.zf, s.sf⟩, ⟨t.zf, t.sf⟩) := by
  simp only [flagChange, State.flagSet, FlagSet.mk.injEq, eq_comm]

/-! ### The obligations -/

/-- Settles O13: `State.stopCause` is the six causes, and a step stops for a reason exactly when its cause holds. -/
theorem eachStopHasItsCause : Obligations.EachStopHasItsCause := by
  intro s t hs h
  have hiff := step_halted_iff hs h
  exact ⟨hiff .endOfStream, hiff .unsupportedOpcode, hiff .truncatedStream, hiff .unimplementedDestination,
    hiff .unimplementedCondition, hiff .branchOutOfStream⟩

/-- Settles O12: a stop is `State.halt` of the state the step began in. -/
theorem faultChangesOnlyRun : Obligations.FaultChangesOnlyRun := by
  intro s t _ h ht
  obtain ⟨r, rfl⟩ := step_stop_eq_halt h ht
  rfl

/-- Settles O9: `step` compares `ip` with L first, the cause of the stop is that they are equal, and a launch starts at
`ip = 0`. -/
theorem endOfStreamEndsTheRun : Obligations.EndOfStreamEndsTheRun := by
  refine ⟨fun s hs hip => step_of_ip_eq_length hs hip, fun s t _ h ht => stopCause_of_step_halted h ht, fun c m s h => ?_⟩
  obtain ⟨rfl, -⟩ := launch_eq_next h
  exact step_of_ip_eq_length (State.start_run c [] m) rfl

/-- Settles O10: the reason recorded is `decodeFaultReason` of the fault. -/
theorem decodeFaultHalts : Obligations.DecodeFaultHalts := fun _ hs hip =>
  ⟨fun hd => step_of_decode_error hs hip hd, fun hd => step_of_decode_error hs hip hd⟩

/-- Settles O15, by induction on the number of steps: one step only emits a record, and the state it gives is again such a
jump to itself. -/
theorem jumpToItselfNeverStops : Obligations.JumpToItselfNeverStops := by
  intro s rest n
  induction n generalizing s with
  | zero => exact fun _ _ _ => ⟨s, rfl, rfl, rfl⟩
  | succ n ih =>
    intro hs hz hd
    have hstep := step_jne_self hs hz hd
    obtain ⟨t, hrun, ht, hlen⟩ := ih (s.emit (traceRecord (.jne 0xFE#8) s s)) hs hz hd
    refine ⟨t, (run_succ_of_step (M := core) hstep n).trans hrun, ht, ?_⟩
    rw [hlen, State.emit_trace, List.length_append, List.length_singleton]
    omega

/-- Settles O55: a stop keeps the trace, and every other step appends `traceRecord` of the instruction that was decoded. -/
theorem traceRecordsEachStep : Obligations.TraceRecordsEachStep := by
  intro s t hs h
  refine ⟨fun ht => ?_, fun ht => ?_⟩
  · obtain ⟨r, rfl⟩ := step_stop_eq_halt h ht
    exact s.halt_trace r
  · rcases step_cases hs h with ⟨-, rfl⟩ | ⟨-, f, -, rfl⟩ | ⟨-, i, rest, u, hd, hu, ⟨r, hrun, rfl⟩ | ⟨hrun, rfl⟩⟩
    · cases ht
    · cases ht
    · cases ht.symm.trans hrun
    · refine ⟨i, rest, traceRecord i s u, hd, ?_, rfl, rfl, rfl, rfl, ?_, mem_regChanges_iff s u, flagChange_eq s u⟩
      · rw [State.emit_trace, exec_keeps_trace hu]
      · exact regChanges_map_reg s u ▸ List.filter_sublist

/-- Settles O44: each form is an `ArithOp` with a memory place, and decodes as every well-formed instruction does. -/
theorem arithmeticMemoryDestinationHalts : Obligations.ArithmeticMemoryDestinationHalts := by
  constructor
  · intro w reg m s i hi
    obtain ⟨a, -, rfl⟩ : ∃ a ∈ [ArithOp.add, .sub, .cmp], a.rmInstr .toRm w reg (.mem m) = i := List.mem_map.1 hi
    exact ⟨exec_arith_mem (a.rmInstr_op ..) (a.rmInstr_dst ..) s, decode_encode⟩
  · intro sx w m v s i hi
    obtain ⟨a, -, rfl⟩ : ∃ a ∈ [ArithOp.add, .sub, .cmp], a.immRmInstr sx w (.mem m) v = i := List.mem_map.1 hi
    exact ⟨exec_arith_mem (a.immRmInstr_op ..) (a.immRmInstr_dst ..) s, decode_encode⟩

/-- Settles O53: the target is checked before the count is written. -/
theorem branchOutOfStreamHalts : Obligations.BranchOutOfStreamHalts :=
  fun _ _ _ _ hop hd hv hout => exec_branch_outOfStream hop hd hv hout

end Sys2Proof.Machine
end

section
/-! A running CORE is never stuck: whatever `ip`, the bytes there and the instruction they encode, there is a next state
(spec/70_reset_and_hazards.md R278; 40_datapath.md R154). -/

namespace Sys2Proof.Machine

/-! ### The end of a step (R150) -/

/-- The record is emitted or it is not; the step of an instruction that gave a next state gives one too. -/
theorem finishStep_next (i : Instr) (s u : State) : ∃ t, finishStep i s (.next u) = .next t := by
  by_cases hrun : u.run = .running
  · exact ⟨_, finishStep_of_running hrun⟩
  · exact ⟨_, finishStep_of_ne_running hrun⟩

/-! ### The obligation -/

/-- Settles O14: the end of the stream and a decode fault are stops, and a stop is a next state; what decodes runs, and every
instruction gives a next state (`exec_next`). -/
theorem runningCoreAlwaysSteps : Obligations.RunningCoreAlwaysSteps := by
  intro s hs
  by_cases hip : s.ip = s.code.length
  · exact ⟨_, step_of_ip_eq_length hs hip⟩
  · cases hd : decode s.fetch with
    | error f => exact ⟨_, step_of_decode_error hs hip hd⟩
    | ok fetched =>
      obtain ⟨i, rest⟩ := fetched
      obtain ⟨u, hu, -⟩ := exec_next i s
      rw [step_of_decode hs hd, hu]
      exact finishStep_next i s u

end Sys2Proof.Machine
end
